-- ==== Sys2Proof/Word.lean ====
section
/-! DEFINITION. The byte, the register index and the reduction modulo 256 that every other file uses (R4, R6, R7). -/

namespace Sys2Proof

/-- A byte: a register value, a memory cell, an address or an operand (R4, R6). -/
abbrev Byte := BitVec 8

/-- A register index 0..7 (R4, R20). -/
abbrev RegIdx := Fin 8

/-- `wrap8(v) = v mod 256`, the mathematical modulus also for negative `v` (R7). -/
def wrap8 (v : Int) : Byte := BitVec.ofInt 8 v

end Sys2Proof
end

