-- ==== Sys2Proof/Config.lean ====
section
/-! DEFINITION. The parameters the spec leaves open (R5): what one machine instance fixes for its whole life.
Their default values are in Sys2Proof/Machine/Params.lean. -/

namespace Sys2Proof

/-- The 13 mnemonics, in the order of the instruction table (R1, R78). -/
inductive Mnemonic where
  | ldi | prn | add | mul | cmp | jmp | jeq | jne | push | pop | call | ret | hlt
deriving DecidableEq, Repr

/-- Every mnemonic once, in the table's order. -/
def Mnemonic.all : List Mnemonic :=
  [.ldi, .prn, .add, .mul, .cmp, .jmp, .jeq, .jne, .push, .pop, .call, .ret, .hlt]

/-- `OPMAP`: the opcode byte of each mnemonic (R5, R78). -/
structure OpMap where
  ldi : Byte
  prn : Byte
  add : Byte
  mul : Byte
  cmp : Byte
  jmp : Byte
  jeq : Byte
  jne : Byte
  push : Byte
  pop : Byte
  call : Byte
  ret : Byte
  hlt : Byte
deriving DecidableEq, Repr

/-- `OPMAP(m)`. -/
def OpMap.byteOf (m : OpMap) : Mnemonic → Byte
  | .ldi => m.ldi
  | .prn => m.prn
  | .add => m.add
  | .mul => m.mul
  | .cmp => m.cmp
  | .jmp => m.jmp
  | .jeq => m.jeq
  | .jne => m.jne
  | .push => m.push
  | .pop => m.pop
  | .call => m.call
  | .ret => m.ret
  | .hlt => m.hlt

/-- `OOR_POLICY`: what an out-of-range register index or operand address does (R5, R9). -/
inductive OorPolicy where
  | wrap
  | fault
deriving DecidableEq, Repr

/-- The parameters of R5. -/
structure Config where
  /-- `OPMAP` -/
  opMap : OpMap
  /-- `SP_INDEX` -/
  spIndex : RegIdx
  /-- `FL_E`, the EQUAL pattern -/
  flE : Byte
  /-- `FL_L`, the LESS_THAN pattern -/
  flL : Byte
  /-- `FL_G`, the GREATER_THAN pattern -/
  flG : Byte
  /-- `OOR_POLICY` -/
  oorPolicy : OorPolicy
  /-- `HLT_PC_ADVANCE`, 0 or 1 -/
  hltPcAdvance : Fin 2
  /-- `EXIT_STATUS_FAULT`, an integer that is not zero: used only by surrounding software, read by no rule (R5, R154) -/
  exitStatusFault : Int
deriving DecidableEq, Repr

end Sys2Proof
end

