-- ==== Sys2Proof/Syntax.lean ====
section
/-! DEFINITION. The 13 instructions with their operand bytes (R74, R77). A register operand is kept as the whole byte that
was fetched, because `ridx` is applied to it during execution and may fault there (R9, R75, R114). -/

namespace Sys2Proof

/-- One constructor per row of the opcode table; the arguments are the operand bytes the instruction uses (R77). -/
inductive Instr where
  | ldi (opA opB : Byte)
  | prn (opA : Byte)
  | add (opA opB : Byte)
  | mul (opA opB : Byte)
  | cmp (opA opB : Byte)
  | jmp (opA : Byte)
  | jeq (opA : Byte)
  | jne (opA : Byte)
  | push (opA : Byte)
  | pop (opA : Byte)
  | call (opA : Byte)
  | ret
  | hlt
deriving DecidableEq, Repr

/-- The mnemonic of an instruction. -/
def Instr.mnemonic : Instr → Mnemonic
  | .ldi _ _ => .ldi
  | .prn _ => .prn
  | .add _ _ => .add
  | .mul _ _ => .mul
  | .cmp _ _ => .cmp
  | .jmp _ => .jmp
  | .jeq _ => .jeq
  | .jne _ => .jne
  | .push _ => .push
  | .pop _ => .pop
  | .call _ => .call
  | .ret => .ret
  | .hlt => .hlt

/-- The operand bytes in memory order (R74). -/
def Instr.operands : Instr → List Byte
  | .ldi a b => [a, b]
  | .prn a => [a]
  | .add a b => [a, b]
  | .mul a b => [a, b]
  | .cmp a b => [a, b]
  | .jmp a => [a]
  | .jeq a => [a]
  | .jne a => [a]
  | .push a => [a]
  | .pop a => [a]
  | .call a => [a]
  | .ret => []
  | .hlt => []

/-- The operand bytes used as register indices, left to right (R77). LDI's second operand is its immediate. -/
def Instr.regOperands : Instr → List Byte
  | .ldi a _ => [a]
  | .prn a => [a]
  | .add a b => [a, b]
  | .mul a b => [a, b]
  | .cmp a b => [a, b]
  | .jmp a => [a]
  | .jeq a => [a]
  | .jne a => [a]
  | .push a => [a]
  | .pop a => [a]
  | .call a => [a]
  | .ret => []
  | .hlt => []

/-- The length in bytes, by the "Length" column of R77. -/
def Instr.lengthBytes : Instr → Nat
  | .ldi _ _ => 3
  | .prn _ => 2
  | .add _ _ => 3
  | .mul _ _ => 3
  | .cmp _ _ => 3
  | .jmp _ => 2
  | .jeq _ => 2
  | .jne _ => 2
  | .push _ => 2
  | .pop _ => 2
  | .call _ => 2
  | .ret => 1
  | .hlt => 1

end Sys2Proof
end

