-- ==== Sys2Proof/WellFormed.lean ====
section
/-! DEFINITION. What a well-formed configuration and a well-formed instruction are. -/

namespace Sys2Proof

/-- `OPMAP` is injective (R5): the 13 opcode bytes are pairwise distinct. -/
def OpMap.wf (m : OpMap) : Bool := decide (Mnemonic.all.map m.byteOf).Nodup

/-- The constraints of R5: `OPMAP` injective; the three flag patterns pairwise distinct and not 0x00;
`EXIT_STATUS_FAULT` not zero. -/
def Config.wf (c : Config) : Bool :=
  c.opMap.wf && decide [0, c.flE, c.flL, c.flG].Nodup && decide (c.exitStatusFault ≠ 0)

/-- A register operand byte is in range: bits 7:3 are zero (R75). -/
def regByteOk (b : Byte) : Bool := decide (b.toNat ≤ 7)

/-- "A well-formed program has bits 7:3 zero" in every register operand byte (R75). -/
def Instr.wf (i : Instr) : Bool := i.regOperands.all regByteOk

end Sys2Proof
end

