-- ==== Sys2Proof/Machine/Params.lean ====
section
/-! DEFINITION. The spec's default value of every open parameter (R5, R78), and the stack pointer's reset value.
The opcode bytes, the stack pointer's index, the flag patterns and the exit status are marked by the spec itself as
taken from general knowledge (log entries 1, 2, 3 and 6); the policy and the halt advance are the spec's decisions
(log entries 4 and 5). -/

namespace Sys2Proof.Machine

/-- The default `OPMAP` (R5, R78). PRESUMED, log entry 1. -/
def defaultOpMap : OpMap where
  ldi := 0x82#8
  prn := 0x47#8
  add := 0xA0#8
  mul := 0xA2#8
  cmp := 0xA7#8
  jmp := 0x54#8
  jeq := 0x55#8
  jne := 0x56#8
  push := 0x45#8
  pop := 0x46#8
  call := 0x50#8
  ret := 0x11#8
  hlt := 0x01#8

/-- The default parameters (R5). PRESUMED and DESIGN CHOICE of the spec, log entries 1 to 6. -/
def defaultConfig : Config where
  opMap := defaultOpMap
  spIndex := 7
  flE := 0x01#8
  flL := 0x04#8
  flG := 0x02#8
  oorPolicy := .wrap
  hltPcAdvance := 0
  exitStatusFault := 1

/-- `SP_RESET` (R4, R20). -/
def spReset : Byte := 0xF4#8

/-- The register file at reset: 0 but for register `SP_INDEX`, which holds `SP_RESET` (R20, R46). -/
def resetRegs (c : Config) : Vector Byte 8 := (Vector.replicate 8 0#8).set c.spIndex.val spReset c.spIndex.isLt

end Sys2Proof.Machine
end

