-- ==== Sys2Proof/Machine/State.lean ====
section
/-! DEFINITION. The state of the engine as plain data (R20 to R46), the reasons a step can stop, and the state after reset. -/

namespace Sys2Proof.Machine

/-- The memory cells that do not read as an unlisted cell reads, as (address, byte) pairs in one canonical form
(`Memory.wf`): addresses strictly rising and below 256, no byte equal to `Memory.unlisted` (R37). -/
abbrev Memory := List Host.Cell

/-- What an address that memory does not list reads as: the reset contents of every cell (R37). -/
def Memory.unlisted : Byte := 0#8

/-- The run state (R32). -/
inductive RunState where
  | running
  | halted
  | faulted
deriving DecidableEq, Repr

/-- The causes a fault record can hold (R34, R154). The fourth name of R10, `UnsupportedAluOp`, is never recorded
(R154: "not applicable"); it is `Fault.unsupportedAluOp`. -/
inductive Cause where
  | unknownOpcode
  | registerIndexFault
  | addressFault
deriving DecidableEq, Repr

/-- The fault record `(cause, opcode, address)` (R34). -/
structure FaultRecord where
  cause : Cause
  opcode : Byte
  address : Byte
deriving DecidableEq, Repr

/-- The whole state (the tuple at the head of `10_state.md`), and the configuration of the machine instance. -/
structure State where
  /-- The parameters of R5, fixed for the life of the instance: the model's own field, written by no step (log entry 7). -/
  cfg : Config
  /-- `x[0..7]` (R20); the stack pointer is the slot `cfg.spIndex` (R22). -/
  regs : Vector Byte 8
  /-- The program counter (R25). -/
  pc : Byte
  /-- The flag register `FL` (R28). -/
  fl : Byte
  /-- Memory (R37). -/
  mem : Memory
  /-- The run state (R32). -/
  run : RunState
  /-- The fault record (R34). -/
  fault : Option FaultRecord
  /-- The output stream, oldest byte first (R42). -/
  out : List Byte
deriving DecidableEq, Repr

/-- Reasons to stop with a fault. The engine's own fatal conditions are no reason to stop here: their entry (R158) is a
next state with `run = faulted` (log entry 9). -/
inductive Fault where
  /-- Raised by the ALU when it is asked for a mnemonic other than ADD, MUL, CMP (R101, R153). No step reaches it. Safe:
  the model stops where the spec says the request fails immediately (log entry 19). -/
  | unsupportedAluOp
deriving DecidableEq, Repr

/-- Reasons to refuse. -/
inductive Refusal where
  /-- Raised by `exec` for an instruction that has no meaning yet; no arm of `exec` does so now. Safe. -/
  | notModelled (mnemonic : String)
  /-- Raised by the load interface for an image of more than 256 bytes (R44, decision D11). Safe. -/
  | imageTooLong
deriving DecidableEq, Repr

/-- The state after reset of an instance whose parameters are `c` (R46, R180). -/
def State.resetWith (c : Config) : State where
  cfg := c
  regs := resetRegs c
  pc := 0#8
  fl := 0#8
  mem := []
  run := .running
  fault := none
  out := []

/-- The state after reset of the instance with the spec's default parameters. -/
def State.reset : State := State.resetWith defaultConfig

end Sys2Proof.Machine
end

