-- ==== Sys2Proof/Machine/Flags.lean ====
section
/-! DEFINITION. The one flag computation of the machine: the outcome of a comparison (R28, R104), and the one test of it
(R29, R111, R112). -/

namespace Sys2Proof.Machine

/-- The pattern CMP writes: EQUAL, LESS_THAN or GREATER_THAN of two unsigned bytes (R104). -/
def compareFlag (c : Config) (a b : Byte) : Byte :=
  if a = b then c.flE else if a.toNat < b.toNat then c.flL else c.flG

/-- `FL = FL_E`, the only test of the flag register (R29). -/
def State.flagEqual (s : State) : Bool := decide (s.fl = s.cfg.flE)

end Sys2Proof.Machine
end

