-- ==== Sys2Proof/Decode.lean ====
section
/-! DEFINITION. Decoding three fetched bytes into an instruction, total and rejecting by name (R79, R80), and the encoder
(R74, R77). -/

namespace Sys2Proof

/-- Why three bytes are no instruction. -/
inductive DecodeError where
  /-- The opcode byte is not in the range of `OPMAP` (R80). -/
  | unknownOpcode (opcode : Byte)
deriving DecidableEq, Repr

/-- The mnemonic `m` with `OPMAP(m) = opcode`: equality on the whole byte (R79). It is unique when `OPMAP` is injective;
otherwise the first in the table's order is taken (log entry 22). -/
def OpMap.mnemonicOf (m : OpMap) (opcode : Byte) : Option Mnemonic :=
  Mnemonic.all.find? fun mn => m.byteOf mn == opcode

/-- The instruction of a mnemonic with the fetched operand bytes; bytes of unused positions are dropped (R77). -/
def Instr.assemble (mn : Mnemonic) (opA opB : Byte) : Instr :=
  match mn with
  | .ldi => .ldi opA opB
  | .prn => .prn opA
  | .add => .add opA opB
  | .mul => .mul opA opB
  | .cmp => .cmp opA opB
  | .jmp => .jmp opA
  | .jeq => .jeq opA
  | .jne => .jne opA
  | .push => .push opA
  | .pop => .pop opA
  | .call => .call opA
  | .ret => .ret
  | .hlt => .hlt

/-- Decode the three fetched bytes (R79, R80). It reads the bytes and `OPMAP` and nothing else. -/
def decode (m : OpMap) (opcode opA opB : Byte) : Except DecodeError Instr :=
  match m.mnemonicOf opcode with
  | some mn => .ok (Instr.assemble mn opA opB)
  | none => .error (.unknownOpcode opcode)

/-- The bytes of an instruction at ascending addresses: the opcode, then the operand bytes (R51, R74). -/
def encode (m : OpMap) (i : Instr) : List Byte := m.byteOf i.mnemonic :: i.operands

/-- Byte `k` of an instruction's bits numbered as `spec/opcode_table.json` numbers them: bit 0 is the least significant
bit of the first byte. -/
def tableByte (nbits w k : Nat) : Byte := BitVec.ofNat 8 ((w % 2 ^ nbits) / 2 ^ (8 * k))

/-- The instruction the decoder reads, with the default `OPMAP`, from an instruction's bits `w`. -/
def decodeTableWord (nbits w : Nat) : Option Instr :=
  match decode Machine.defaultOpMap (tableByte nbits w 0) (tableByte nbits w 1) (tableByte nbits w 2) with
  | .ok i => some i
  | .error _ => none

end Sys2Proof
end

