-- ==== Sys2Proof/Machine/Ops.lean ====
section
/-! DEFINITION. The named operations over registers, memory, program counter and output (R8), the fetch (R70) and the fault
entry (R158). -/

namespace Sys2Proof.Machine

/-! ### Registers -/

/-- `x[i]` (R8). -/
def State.reg (s : State) (i : RegIdx) : Byte := s.regs[i]

/-- `x[i] <- v` (R8, R20). No register is hard-wired (R21). -/
def State.setReg (s : State) (i : RegIdx) (v : Byte) : State :=
  { s with regs := s.regs.set i.val v i.isLt }

/-- `SP`, the register `SP_INDEX` (R22). -/
def State.sp (s : State) : Byte := s.reg s.cfg.spIndex

/-- `SP <- wrap8(SP - 1)`: the pre-decrement of PUSH and CALL (R120, R122, R130). -/
def State.decSp (s : State) : State := s.setReg s.cfg.spIndex (wrap8 ((s.sp.toNat : Int) - 1))

/-- `SP <- wrap8(SP + 1)`: the post-increment of POP and RET (R121, R122, R131). -/
def State.incSp (s : State) : State := s.setReg s.cfg.spIndex (wrap8 (s.sp.toNat + 1))

/-! ### Program counter, flag, output, run state -/

/-- `pc <- v` (R8). -/
def State.setPc (s : State) (v : Byte) : State := { s with pc := v }

/-- `pc <- wrap8(pc + n)`: the positional increment (R26, R27). -/
def State.advancePc (s : State) (n : Nat) : State := s.setPc (wrap8 (s.pc.toNat + n))

/-- `FL <- v` (R8). -/
def State.setFl (s : State) (v : Byte) : State := { s with fl := v }

/-- `Output(v)`: append one byte to the output stream (R8, R42). -/
def State.output (s : State) (v : Byte) : State := { s with out := s.out ++ [v] }

/-- `run <- HALTED` (R33, R140). -/
def State.halt (s : State) : State := { s with run := .halted }

/-! ### Memory -/

/-- The byte at an address; `Memory.unlisted` where nothing is listed (R37). -/
def Memory.read : Memory → Nat → Byte
  | [], _ => Memory.unlisted
  | (k, v) :: rest, a => if k = a then v else Memory.read rest a

/-- Drop every entry of one address. -/
def Memory.erase (m : Memory) (a : Nat) : Memory := m.filter fun c => decide (c.1 ≠ a)

/-- Put an entry before the first higher address. -/
def Memory.insert : Memory → Nat → Byte → Memory
  | [], a, v => [(a, v)]
  | (k, w) :: rest, a, v => if a < k then (a, v) :: (k, w) :: rest else (k, w) :: Memory.insert rest a v

/-- Store a byte, in the canonical form: writing what an unlisted address reads as removes the entry. -/
def Memory.write (m : Memory) (a : Nat) (v : Byte) : Memory :=
  if v = Memory.unlisted then m.erase a else (m.erase a).insert a v

/-- The canonical form for the part of a memory that starts at address `lo`. -/
def Memory.wfFrom : Nat → Memory → Bool
  | _, [] => true
  | lo, (k, v) :: rest =>
    decide (lo ≤ k) && decide (k < 256) && decide (v ≠ Memory.unlisted) && Memory.wfFrom (k + 1) rest

/-- The canonical form: addresses strictly rising and below 256, no byte equal to what an unlisted address reads as. -/
def Memory.wf (m : Memory) : Bool := Memory.wfFrom 0 m

/-- `MemRead(a, 1)` (R8, R50). Every byte is an address that exists, so it never faults. -/
def State.memRead (s : State) (a : Byte) : Byte := Memory.read s.mem a.toNat

/-- `MemWrite(a, 1, v)` (R8, R50). -/
def State.memWrite (s : State) (a v : Byte) : State := { s with mem := Memory.write s.mem a.toNat v }

/-! ### The fault entry -/

/-- Fault entry (R158): record the cause, the opcode byte `mem[pc]` and `pc`, and stop the engine; nothing else changes.
There is no return from it and no operation that clears it but reset (R161, R180). -/
def State.takeFault (c : Cause) (s : State) : State :=
  { s with fault := some ⟨c, s.memRead s.pc, s.pc⟩, run := .faulted }

/-! ### The stack -/

/-- Push: decrement SP, then store at the new SP the byte `v` computes from the state after the decrement
(R11, R120, R123, R130). -/
def State.pushWith (s : State) (v : State → Byte) : State := s.decSp.memWrite s.decSp.sp (v s.decSp)

end Sys2Proof.Machine
end

