-- ==== Sys2Proof/Machine/Operands.lean ====
section
/-! DEFINITION. The two helpers in which the out-of-range policy is applied (R9), and the two uses of them: a register operand
of an instruction (R75) and the fetch of three bytes (R70). -/

namespace Sys2Proof.Machine

/-- `ridx(b)`: the register an operand byte selects, `none` where R9 raises RegisterIndexFault (R9, R75). -/
def ridx (c : Config) (b : Byte) : Option RegIdx :=
  match c.oorPolicy with
  | .wrap => some ⟨b.toNat % 8, Nat.mod_lt _ (by decide)⟩
  | .fault => if h : b.toNat ≤ 7 then some ⟨b.toNat, Nat.lt_succ_of_le h⟩ else none

/-- `opaddr(pc, k)`: the address of the k-th operand byte, `none` where R9 raises AddressFault (R9, R71, R72). -/
def opaddr (c : Config) (pc : Byte) (k : Nat) : Option Byte :=
  match c.oorPolicy with
  | .wrap => some (wrap8 (pc.toNat + k))
  | .fault => if pc.toNat + k > 255 then none else some (wrap8 (pc.toNat + k))

/-- Continue with the register an operand byte selects, or take RegisterIndexFault (R9, R10, R151, R158). -/
def withReg (b : Byte) (s : State) (k : RegIdx → Host.Outcome State Fault Refusal) : Host.Outcome State Fault Refusal :=
  match ridx s.cfg b with
  | some i => k i
  | none => .next (s.takeFault .registerIndexFault)

/-- The three bytes at the program counter, whatever the instruction is; `none` where an operand address raises
AddressFault (R70, R71, R72). -/
def fetch (s : State) : Option (Byte × Byte × Byte) :=
  match opaddr s.cfg s.pc 1, opaddr s.cfg s.pc 2 with
  | some a1, some a2 => some (s.memRead s.pc, s.memRead a1, s.memRead a2)
  | _, _ => none

/-- Fetch, then decode: the instruction the next step executes, or the cause of the fault it takes instead. The fetch comes
first, so AddressFault goes before UnknownOpcode (R157, R170). -/
def fetchDecode (s : State) : Except Cause Instr :=
  match fetch s with
  | none => .error .addressFault
  | some (opcode, opA, opB) =>
    match decode s.cfg.opMap opcode opA opB with
    | .error (.unknownOpcode _) => .error .unknownOpcode
    | .ok i => .ok i

/-- What a step does when the engine is not RUNNING: it executes nothing and no state changes (R33, R141; log entry 8). -/
def stopped (s : State) : Host.Outcome State Fault Refusal := .next s

/-- Store the three bytes of an instruction's bits where the next fetch reads them, wrapping at the top of memory
(R70, R71). It stands for the external load (R44; log entry 16). -/
def storeFetchWord (s : State) (nbits w : Nat) : State :=
  ((s.memWrite s.pc (tableByte nbits w 0)).memWrite (wrap8 (s.pc.toNat + 1)) (tableByte nbits w 1)).memWrite
    (wrap8 (s.pc.toNat + 2)) (tableByte nbits w 2)

end Sys2Proof.Machine
end

