-- ==== Sys2Proof/Machine/Alu.lean ====
section
/-! DEFINITION. The ALU (R100, R101) and its three instructions ADD, MUL, CMP (R102 to R109). -/

namespace Sys2Proof.Machine

/-- The ALU: a dispatcher over mnemonics. It writes register `ra` (ADD, MUL) or FL (CMP) and touches neither memory nor the
program counter (R100, R106). A request for any other mnemonic fails at once (R101, R153). -/
def alu (op : Mnemonic) (ra rb : RegIdx) (s : State) : Except Fault State :=
  match op with
  | .add => .ok (s.setReg ra (wrap8 ((s.reg ra).toNat + (s.reg rb).toNat)))
  | .mul => .ok (s.setReg ra (wrap8 ((s.reg ra).toNat * (s.reg rb).toNat)))
  | .cmp => .ok (s.setFl (compareFlag s.cfg (s.reg ra) (s.reg rb)))
  | .ldi | .prn | .jmp | .jeq | .jne | .push | .pop | .call | .ret | .hlt => .error .unsupportedAluOp

/-- An ALU instruction: both register operands, left to right, then the ALU, then the engine's advance by 3
(R100, R102, R157). -/
def aluInstr (op : Mnemonic) (opA opB : Byte) (s : State) : Host.Outcome State Fault Refusal :=
  withReg opA s fun ra => withReg opB s fun rb =>
    match alu op ra rb s with
    | .ok t => .next (t.advancePc 3)
    | .error f => .fault f

/-- ADD (R102). -/
def execAdd (opA opB : Byte) (s : State) : Host.Outcome State Fault Refusal := aluInstr .add opA opB s

/-- MUL (R103). -/
def execMul (opA opB : Byte) (s : State) : Host.Outcome State Fault Refusal := aluInstr .mul opA opB s

/-- CMP (R104). -/
def execCmp (opA opB : Byte) (s : State) : Host.Outcome State Fault Refusal := aluInstr .cmp opA opB s

end Sys2Proof.Machine
end

