-- ==== Sys2Proof/Machine/CallRet.lean ====
section
/-! DEFINITION. Subroutine call and return, CALL and RET (R130 to R136). -/

namespace Sys2Proof.Machine

/-- The return address `wrap8(pc + 2)` of a CALL at `pc` (R130, R133). -/
def returnAddress (s : State) : Byte := wrap8 (s.pc.toNat + 2)

/-- CALL: push the return address, then jump to the register as it is after the push (R130, R132). -/
def execCall (opA : Byte) (s : State) : Host.Outcome State Fault Refusal :=
  withReg opA s fun t => .next ((s.pushWith returnAddress).setPc ((s.pushWith returnAddress).reg t))

/-- RET: the pc from `mem[SP]`, then increment SP (R131). -/
def execRet (s : State) : Host.Outcome State Fault Refusal := .next (s.setPc (s.memRead s.sp)).incSp

end Sys2Proof.Machine
end

