-- ==== Sys2Proof/Machine/Hlt.lean ====
section
/-! DEFINITION. HLT, halt (R140, R141). -/

namespace Sys2Proof.Machine

/-- HLT: `run <- HALTED; pc <- wrap8(pc + HLT_PC_ADVANCE)` (R140). -/
def execHlt (s : State) : Host.Outcome State Fault Refusal := .next (s.halt.advancePc s.cfg.hltPcAdvance.val)

end Sys2Proof.Machine
end

