-- ==== Sys2Proof/Machine/Jump.lean ====
section
/-! DEFINITION. The jumps JMP, JEQ, JNE (R110 to R115). The new pc replaces the old one; no increment is added (R26). -/

namespace Sys2Proof.Machine

/-- Jump to the address in the register that an operand byte selects (R110, R113). -/
def jumpTo (opA : Byte) (s : State) : Host.Outcome State Fault Refusal :=
  withReg opA s fun t => .next (s.setPc (s.reg t))

/-- A conditional jump: when it is not taken the register is not accessed and the pc advances by 2 (R111, R112, R114). -/
def jumpIf (taken : Bool) (opA : Byte) (s : State) : Host.Outcome State Fault Refusal :=
  if taken then jumpTo opA s else .next (s.advancePc 2)

/-- JMP (R110). -/
def execJmp (opA : Byte) (s : State) : Host.Outcome State Fault Refusal := jumpTo opA s

/-- JEQ: taken when `FL = FL_E` (R111). -/
def execJeq (opA : Byte) (s : State) : Host.Outcome State Fault Refusal := jumpIf s.flagEqual opA s

/-- JNE: taken when `FL != FL_E` (R112). -/
def execJne (opA : Byte) (s : State) : Host.Outcome State Fault Refusal := jumpIf (!s.flagEqual) opA s

end Sys2Proof.Machine
end

