-- ==== Sys2Proof/Machine/Ldi.lean ====
section
/-! DEFINITION. LDI, load immediate (R90, R91). -/

namespace Sys2Proof.Machine

/-- LDI: `x[d] <- opB; pc <- wrap8(pc + 3)` (R90). -/
def execLdi (opA opB : Byte) (s : State) : Host.Outcome State Fault Refusal :=
  withReg opA s fun d => .next ((s.setReg d opB).advancePc 3)

end Sys2Proof.Machine
end

