-- ==== Sys2Proof/Machine/Print.lean ====
section
/-! DEFINITION. PRN, print register (R95, R96). -/

namespace Sys2Proof.Machine

/-- PRN: `Output(x[r]); pc <- wrap8(pc + 2)` (R95). -/
def execPrn (opA : Byte) (s : State) : Host.Outcome State Fault Refusal :=
  withReg opA s fun r => .next ((s.output (s.reg r)).advancePc 2)

end Sys2Proof.Machine
end

