-- ==== Sys2Proof/Machine/Stack.lean ====
section
/-! DEFINITION. The stack instructions PUSH and POP (R120 to R126), each in the order its pseudocode lists (R11, R123). -/

namespace Sys2Proof.Machine

/-- PUSH: decrement SP, store the operand register as it is after the decrement, advance by 2 (R120). -/
def execPush (opA : Byte) (s : State) : Host.Outcome State Fault Refusal :=
  withReg opA s fun r => .next ((s.pushWith fun t => t.reg r).advancePc 2)

/-- POP: write the destination from `mem[SP]`, then increment SP as it is after that write, advance by 2 (R121). -/
def execPop (opA : Byte) (s : State) : Host.Outcome State Fault Refusal :=
  withReg opA s fun d => .next ((s.setReg d (s.memRead s.sp)).incSp.advancePc 2)

end Sys2Proof.Machine
end

