-- ==== Sys2Proof/Machine/Dispatch.lean ====
section
/-! DEFINITION. The one dispatch from an instruction to its meaning (R170). -/

namespace Sys2Proof.Machine

/-- The effect of one instruction: "execute the rule of m" (R170). -/
def exec (i : Instr) (s : State) : Host.Outcome State Fault Refusal :=
  match i with
  | .ldi opA opB => Sys2Proof.Machine.execLdi opA opB s
  | .prn opA => Sys2Proof.Machine.execPrn opA s
  | .add opA opB => Sys2Proof.Machine.execAdd opA opB s
  | .mul opA opB => Sys2Proof.Machine.execMul opA opB s
  | .cmp opA opB => Sys2Proof.Machine.execCmp opA opB s
  | .jmp opA => Sys2Proof.Machine.execJmp opA s
  | .jeq opA => Sys2Proof.Machine.execJeq opA s
  | .jne opA => Sys2Proof.Machine.execJne opA s
  | .push opA => Sys2Proof.Machine.execPush opA s
  | .pop opA => Sys2Proof.Machine.execPop opA s
  | .call opA => Sys2Proof.Machine.execCall opA s
  | .ret => Sys2Proof.Machine.execRet s
  | .hlt => Sys2Proof.Machine.execHlt s

end Sys2Proof.Machine
end

