-- ==== Sys2Proof/Machine/Step.lean ====
section
/-! DEFINITION. One step of the engine (R170), and the placing of one instruction where the next fetch reads it. -/

namespace Sys2Proof.Machine

/-- One step (R170): fetch, decode, execute, with the faults of fetch and decode taken in that order (R157). When the engine
is not RUNNING it executes nothing and no state changes (R33, R141; log entry 8). -/
def step (s : State) : Host.Outcome State Fault Refusal :=
  match s.run with
  | .halted => stopped s
  | .faulted => stopped s
  | .running =>
    match fetchDecode s with
    | .error c => .next (s.takeFault c)
    | .ok i => exec i s

/-- `s` with the instruction whose bits are `w` stored at the program counter, so that the next step of a RUNNING engine
fetches it. Only memory changes (log entry 16). -/
def State.withFetchWord (s : State) (nbits w : Nat) : State := storeFetchWord s nbits w

end Sys2Proof.Machine
end

