-- ==== Sys2Proof/Machine/Interface.lean ====
section
/-! DEFINITION. The abstract interfaces of the block (R41): reset, load, status and trace. The fifth, output, is the state's
own field `out` (R42). None of them is a step. -/

namespace Sys2Proof.Machine

/-- Reset, applied at any time: every piece of state takes its reset value, memory included; the parameters of the instance
stay (R41, R180, R181; log entry 17). -/
def State.resetEvent (s : State) : State := State.resetWith s.cfg

/-- Write bytes to consecutive addresses from `a` on. -/
def Memory.writeAll (m : Memory) (a : Nat) : List Byte → Memory
  | [] => m
  | b :: rest => Memory.writeAll (m.write a b) (a + 1) rest

/-- Load: write the image to `mem[0..N-1]` and touch nothing else; an image of more than 256 bytes is refused (R44, D11). -/
def State.load (image : List Byte) (s : State) : Host.Outcome State Fault Refusal :=
  if image.length ≤ 256 then .next { s with mem := Memory.writeAll s.mem 0 image } else .refused .imageTooLong

/-- Reset, then load: the launch state of a run (R185, R186). -/
def launch (c : Config) (image : List Byte) : Host.Outcome State Fault Refusal := (State.resetWith c).load image

/-- Status: the run state and the fault record (R41). -/
def State.status (s : State) : RunState × Option FaultRecord := (s.run, s.fault)

/-- Trace: the pc, the next three memory bytes and the 8 registers (R45). The bytes are those the fetch reads (R70), so
there are none where it raises AddressFault (log entry 18). -/
def State.trace (s : State) : Byte × Option (Byte × Byte × Byte) × Vector Byte 8 := (s.pc, fetch s, s.regs)

end Sys2Proof.Machine
end

