-- ==== Sys2Proof/Safety.lean ====
section
/-! DEFINITION. What a safe state and the end of a run are (R190), and the frame predicates that claims are written in. -/

namespace Sys2Proof.Machine

/-- The safety predicate: "a model's safety predicate is `fault = none`" (R190). -/
def State.safe (s : State) : Prop := s.fault = none

/-- A run has ended exactly when `run` is HALTED or FAULTED (R190). -/
def State.ended (s : State) : Prop := s.run = .halted ∨ s.run = .faulted

/-- The flag register holds 0x00 or one of the three patterns (R28). -/
def State.flagLegal (s : State) : Prop := s.fl = 0#8 ∨ s.fl = s.cfg.flE ∨ s.fl = s.cfg.flL ∨ s.fl = s.cfg.flG

/-- `fault != none` exactly when `run = FAULTED` (R34). -/
def State.faultAgrees (s : State) : Prop := s.fault.isSome = true ↔ s.run = .faulted

/-- The invariant of the machine: a well-formed configuration, memory in canonical form, a legal flag, and a fault record
exactly in the FAULTED state. -/
def State.invariant (s : State) : Prop :=
  s.cfg.wf = true ∧ s.mem.wf = true ∧ s.flagLegal ∧ s.faultAgrees

/-- Every byte of memory reads in `t` as it does in `s`. -/
def sameMemory (s t : State) : Prop := ∀ a : Byte, t.memRead a = s.memRead a

/-- Every byte of memory but the one at `a` reads in `t` as it does in `s`. -/
def sameMemoryBut (a : Byte) (s t : State) : Prop := ∀ b : Byte, b ≠ a → t.memRead b = s.memRead b

/-- Every register holds in `t` what it holds in `s`. -/
def sameRegs (s t : State) : Prop := ∀ r : RegIdx, t.reg r = s.reg r

/-- Every register but those of the list holds in `t` what it holds in `s`. -/
def sameRegsBut (l : List RegIdx) (s t : State) : Prop := ∀ r : RegIdx, r ∉ l → t.reg r = s.reg r

/-- The flag register, the run state, the fault record and the output are in `t` what they are in `s`, and so are the
parameters. -/
def sameRest (s t : State) : Prop := t.cfg = s.cfg ∧ t.fl = s.fl ∧ t.run = s.run ∧ t.fault = s.fault ∧ t.out = s.out

/-- The register operand byte `b` selects a register in `s`: the policy wraps, or the byte is in range (R9, R75). -/
def State.selects (s : State) (b : Byte) : Prop := s.cfg.oorPolicy = .wrap ∨ b.toNat ≤ 7

/-- The register a byte selects when it selects one: its bits 2:0 (R9, R75). -/
def selected (b : Byte) : RegIdx := ⟨b.toNat % 8, Nat.mod_lt _ (by decide)⟩

/-- `s` under the out-of-range policy `p` (R5, R194). -/
def State.withPolicy (s : State) (p : OorPolicy) : State := { s with cfg := { s.cfg with oorPolicy := p } }

/-- The registers an instruction may write, by the "Writes" column of R23. -/
def writtenRegs (c : Config) : Instr → List RegIdx
  | .ldi a _ => [selected a]
  | .prn _ => []
  | .add a _ => [selected a]
  | .mul a _ => [selected a]
  | .cmp _ _ => []
  | .jmp _ => []
  | .jeq _ => []
  | .jne _ => []
  | .push _ => [c.spIndex]
  | .pop a => [selected a, c.spIndex]
  | .call _ => [c.spIndex]
  | .ret => [c.spIndex]
  | .hlt => []

end Sys2Proof.Machine
end

