-- ==== Sys2Proof/Certificates/Slice0/Obligations.lean ====
section
/-! DEFINITION. The statements for the provers. Additions and subtractions of bytes are those of 8-bit vectors, which wrap
modulo 256. `s.selects b` says that the operand byte `b` selects a register (the policy wraps, or `b` is at most 7), and
`selected b` is that register (R9, R75). -/

open Sys2Proof Sys2Proof.Machine

/-! ### Encoding and decoding -/

/-- Words written out from the encodings of `30_encoding.md` decode to their instructions. It rests on the default opcode
bytes, which the spec marks as taken from general knowledge (log entry 1). -/
def Obligations.DefaultWordsDecode : Prop :=
  decode defaultOpMap 0b10000010 0b00000000 0b00001000 = .ok (.ldi 0 8) ∧
  decode defaultOpMap 0b01000111 0b00000000 0b00000001 = .ok (.prn 0) ∧
  decode defaultOpMap 0b10100000 0b00000000 0b00000001 = .ok (.add 0 1) ∧
  decode defaultOpMap 0b01010101 0b00000011 0b11111111 = .ok (.jeq 3) ∧
  decode defaultOpMap 0b01000101 0b00001111 0b00000000 = .ok (.push 15) ∧
  decode defaultOpMap 0b01010000 0b00000001 0b01000111 = .ok (.call 1) ∧
  decode defaultOpMap 0b00010001 0b10000010 0b00000000 = .ok .ret ∧
  decode defaultOpMap 0b00000001 0b00000000 0b00000000 = .ok .hlt ∧
  decode defaultOpMap 0b00000000 0b00000000 0b00000000 = .error (.unknownOpcode 0)

/-- Decoding the bytes that encode an instruction, with any bytes after them, gives the instruction back: for every
instruction, every operand byte and every injective `OPMAP`. -/
def Obligations.DecodeUndoesEncode : Prop :=
  ∀ (m : OpMap) (i : Instr) (opcode opA opB : Byte),
    m.wf = true → encode m i <+: [opcode, opA, opB] → decode m opcode opA opB = .ok i

/-- Bytes that decode to an instruction begin with its encoding, whatever the `OPMAP`. -/
def Obligations.EncodeUndoesDecode : Prop :=
  ∀ (m : OpMap) (i : Instr) (opcode opA opB : Byte),
    decode m opcode opA opB = .ok i → encode m i <+: [opcode, opA, opB]

/-- R79: a row matches exactly when the whole opcode byte equals `OPMAP(mnemonic)`, at most one row matches, and the
operands are the bytes after the opcode, never bits of it. -/
def Obligations.DecodeIsByWholeOpcodeByte : Prop :=
  ∀ (m : OpMap) (opcode opA opB : Byte), m.wf = true →
    (∀ mn : Mnemonic, m.byteOf mn = opcode ↔ ∃ i, decode m opcode opA opB = .ok i ∧ i.mnemonic = mn) ∧
    (∀ x y : Mnemonic, m.byteOf x = opcode → m.byteOf y = opcode → x = y) ∧
    (∀ i, decode m opcode opA opB = .ok i → i.operands <+: [opA, opB]) ∧
    ((∀ mn, m.byteOf mn ≠ opcode) → decode m opcode opA opB = .error (.unknownOpcode opcode))

/-- Exactly 243 of the 256 byte values are rejected by the decoder, for every injective `OPMAP`. -/
def Obligations.IllegalOpcodesAre243 : Prop :=
  ∀ m : OpMap, m.wf = true →
    ((List.range 256).filter fun n =>
      decide (decode m (BitVec.ofNat 8 n) 0 0 = .error (.unknownOpcode (BitVec.ofNat 8 n)))).length = 243

/-! ### Fetch, step, faults -/

/-- The fetch delivers three bytes exactly under the Wrap policy or when `pc` is at most 253, and they are the cells at `pc`,
`pc + 1` and `pc + 2`, modulo 256 (R70; the wrap of R71 and the limit of R72 are decision D4, log entry 4). -/
def Obligations.FetchReadsThreeBytes : Prop :=
  ∀ (s : State) (opcode opA opB : Byte),
    fetch s = some (opcode, opA, opB) ↔
      (s.cfg.oorPolicy = .wrap ∨ s.pc.toNat ≤ 253) ∧ opcode = s.memRead s.pc ∧ opA = s.memRead (s.pc + 1#8) ∧
        opB = s.memRead (s.pc + 2#8)

/-- Under the Fault policy an engine at 254 or 255 takes AddressFault whatever stands there (decision D4, log entry 4). -/
def Obligations.FetchFaultsAtTopOfMemory : Prop :=
  ∀ s : State, s.run = .running → s.cfg.oorPolicy = .fault → 254 ≤ s.pc.toNat →
    step s = .next (s.takeFault .addressFault)

/-- When the bytes at the program counter decode to an instruction, a step of a running engine is that instruction's
effect and nothing more. -/
def Obligations.StepRunsDecodedInstruction : Prop :=
  ∀ (s : State) (i : Instr), s.run = .running → (s.cfg.oorPolicy = .wrap ∨ s.pc.toNat ≤ 253) →
    decode s.cfg.opMap (s.memRead s.pc) (s.memRead (s.pc + 1#8)) (s.memRead (s.pc + 2#8)) = .ok i →
    step s = exec i s

/-- A fetched opcode byte outside the range of `OPMAP` takes UnknownOpcode under both policies; the record holds that byte
and `pc`. FAULTED and the record are the spec's decision D7 (log entry 9). That the step after it is answered, with the same
state, is the model's choice (log entry 8). -/
def Obligations.UnknownOpcodeIsFatal : Prop :=
  ∀ s : State, s.run = .running → (s.cfg.oorPolicy = .wrap ∨ s.pc.toNat ≤ 253) →
    (∀ mn, s.cfg.opMap.byteOf mn ≠ s.memRead s.pc) →
    ∃ t, step s = .next t ∧ t.run = .faulted ∧ t.fault = some ⟨.unknownOpcode, s.memRead s.pc, s.pc⟩ ∧
      step t = .next t

/-- The fault entry: the record holds the cause, `mem[pc]` and `pc`, the engine is FAULTED, and nothing else changes
(R158, decision D7, log entries 9 and 20). -/
def Obligations.FaultEntryRecordsAndStops : Prop :=
  ∀ (s : State) (c : Cause),
    (s.takeFault c).fault = some ⟨c, s.memRead s.pc, s.pc⟩ ∧ (s.takeFault c).run = .faulted ∧
    (s.takeFault c).pc = s.pc ∧ sameRegs s (s.takeFault c) ∧ (s.takeFault c).fl = s.fl ∧
    sameMemory s (s.takeFault c) ∧ (s.takeFault c).out = s.out ∧ (s.takeFault c).cfg = s.cfg

/-- However often an engine that is HALTED or FAULTED is asked to step, no state changes (R33, R141). That such a step is
answered at all, with the same state, is the model's choice (log entry 8). -/
def Obligations.StoppedEngineNeverChanges : Prop :=
  ∀ (k : Nat) (s : State), s.ended → Host.Core.run Sys2Proof.core k s = .next s

/-- A step always answers a next state: no state stops the machine with a fault or a refusal of the model. For an engine
that is not running this rests on log entry 8. -/
def Obligations.StepIsTotal : Prop := ∀ s : State, ∃ t, step s = .next t

/-- RUNNING goes to HALTED by HLT only and to FAULTED by a raised fault only; HALTED and FAULTED have no way out by a step
(R33; the answer of a stopped engine is log entry 8). -/
def Obligations.RunStateTransitions : Prop :=
  ∀ s t : State, step s = .next t →
    (s.run = .running → t.run = .halted → s.memRead s.pc = s.cfg.opMap.byteOf .hlt ∧ exec .hlt s = .next t) ∧
    (s.run = .running → t.run = .faulted → ∃ c, t = s.takeFault c) ∧
    (s.run ≠ .running → t = s)

/-- A faulting step changes no register, no flag, no memory cell and emits no output, and nothing executes after it (R160).
That the steps after it are answered, with the same state, is the model's choice (log entry 8); FAULTED is the spec's
decision D7 (log entry 9). -/
def Obligations.FaultsArePrecise : Prop :=
  ∀ s t : State, s.run = .running → step s = .next t → t.run = .faulted →
    sameRegs s t ∧ t.pc = s.pc ∧ t.fl = s.fl ∧ sameMemory s t ∧ t.out = s.out ∧
      ∀ k, Host.Core.run Sys2Proof.core k t = .next t

/-- Under the Wrap policy the only fault a step can take is UnknownOpcode (conflict C4, R155; decision D4). -/
def Obligations.WrapPolicyFaultsOnlyOnUnknownOpcode : Prop :=
  ∀ s t : State, s.run = .running → s.cfg.oorPolicy = .wrap → step s = .next t → t.run = .faulted →
    t = s.takeFault .unknownOpcode ∧ ∀ mn, s.cfg.opMap.byteOf mn ≠ s.memRead s.pc

/-- The cause a step records follows the fixed order AddressFault, UnknownOpcode, RegisterIndexFault (R157, decision D10, log
entry 15), and the record holds the opcode byte and the address (decision D7, log entries 9 and 20). -/
def Obligations.FaultPriority : Prop :=
  ∀ (s t : State) (r : FaultRecord), s.run = .running → s.fault = none → step s = .next t → t.fault = some r →
    r.opcode = s.memRead s.pc ∧ r.address = s.pc ∧
    (r.cause = .addressFault ↔ s.cfg.oorPolicy = .fault ∧ 254 ≤ s.pc.toNat) ∧
    (r.cause = .unknownOpcode ↔
      ¬ (s.cfg.oorPolicy = .fault ∧ 254 ≤ s.pc.toNat) ∧ ∀ mn, s.cfg.opMap.byteOf mn ≠ s.memRead s.pc)

/-- Code below 254 whose register operand bytes are at most 7 steps alike under both policies (R194). For an engine that is
not running this rests on log entry 8. -/
def Obligations.PoliciesAgreeOnWellFormedCode : Prop :=
  ∀ s : State, s.pc.toNat ≤ 253 →
    (∀ i, decode s.cfg.opMap (s.memRead s.pc) (s.memRead (s.pc + 1#8)) (s.memRead (s.pc + 2#8)) = .ok i → i.wf = true) →
    ∃ t : State, step (s.withPolicy .wrap) = .next (t.withPolicy .wrap) ∧
      step (s.withPolicy .fault) = .next (t.withPolicy .fault)

/-- An instruction's bits stored at the program counter are what the next step runs. -/
def Obligations.StoredInstructionIsRunNext : Prop :=
  ∀ (s : State) (nbits w : Nat) (i : Instr), s.run = .running → (s.cfg.oorPolicy = .wrap ∨ s.pc.toNat ≤ 253) →
    decode s.cfg.opMap (tableByte nbits w 0) (tableByte nbits w 1) (tableByte nbits w 2) = .ok i →
    step (s.withFetchWord nbits w) = exec i (s.withFetchWord nbits w)

/-! ### Invariants of every step -/

/-- Reset gives a state that meets the invariant, for every well-formed configuration, the default one among them. That the
default one is well formed rests on the presumed opcode bytes, flag patterns and exit status (log entries 1, 3 and 6), and
the canonical form of memory is the model's own (log entry 11). -/
def Obligations.ResetMeetsInvariant : Prop :=
  (∀ c : Config, c.wf = true → (State.resetWith c).invariant) ∧ State.reset.invariant

/-- Every step keeps the invariant: a well-formed configuration (R5), memory in the model's own canonical form (log entry
11), the flag register at 0x00 or one of the three patterns (R28, decision D3, log entry 3), and a fault record exactly in
the FAULTED state (R34, decision D7, log entry 9). For a stopped engine it rests on log entry 8. -/
def Obligations.StepKeepsInvariant : Prop :=
  ∀ s t : State, s.invariant → step s = .next t → t.invariant

/-- The parameters are fixed for the life of an instance: no number of steps changes them. -/
def Obligations.ConfigurationIsFixed : Prop :=
  ∀ (k : Nat) (s t : State), Host.Core.run Sys2Proof.core k s = .next t → t.cfg = s.cfg

/-- The output stream is append-only, a step appends at most one byte, and only PRN appends. -/
def Obligations.OutputGrowsByPrnOnly : Prop :=
  (∀ s t : State, step s = .next t → ∃ l, t.out = s.out ++ l ∧ l.length ≤ 1) ∧
  (∀ (i : Instr) (s t : State), exec i s = .next t → i.mnemonic ≠ .prn → t.out = s.out)

/-- No instruction but CMP changes the flag register. -/
def Obligations.OnlyCmpWritesFlag : Prop :=
  ∀ (i : Instr) (s t : State), exec i s = .next t → i.mnemonic ≠ .cmp → t.fl = s.fl

/-- No instruction but JEQ and JNE depends on the flag register, and those two see only whether it equals `FL_E`. With FL
replaced by `v` everything but FL comes out the same; FL itself comes out the same from a CMP that writes it (the previous
FL has no influence), and as `v` from everything else, a faulting CMP included. -/
def Obligations.OnlyConditionalJumpsReadFlag : Prop :=
  ∀ (i : Instr) (s t : State) (v : Byte), exec i s = .next t →
    ((i.mnemonic ≠ .jeq ∧ i.mnemonic ≠ .jne) ∨ (s.fl = s.cfg.flE ↔ v = s.cfg.flE)) →
    ∃ u, exec i (s.setFl v) = .next u ∧ u.regs = t.regs ∧ u.pc = t.pc ∧ u.mem = t.mem ∧ u.run = t.run ∧
      u.fault = t.fault ∧ u.out = t.out ∧ u.cfg = t.cfg ∧
      (∀ opA opB, i = .cmp opA opB → s.selects opA → s.selects opB → u.fl = t.fl) ∧
      (∀ opA opB, i = .cmp opA opB → ¬ (s.selects opA ∧ s.selects opB) → u.fl = v) ∧
      (i.mnemonic ≠ .cmp → u.fl = v)

/-- Only PUSH and CALL change memory, and they change no byte but the one at the new stack pointer. -/
def Obligations.OnlyPushAndCallWriteMemory : Prop :=
  ∀ (i : Instr) (s t : State), exec i s = .next t →
    (i.mnemonic ≠ .push → i.mnemonic ≠ .call → sameMemory s t) ∧ sameMemoryBut (s.sp - 1#8) s t

/-- No instruction changes a register that the "Writes" column of R23 does not give it. -/
def Obligations.RegistersWrittenByTable : Prop :=
  ∀ (i : Instr) (s t : State), exec i s = .next t → sameRegsBut (writtenRegs s.cfg i) s t

/-- An instruction that is neither a control transfer nor HLT advances the pc by its length, or faults and leaves it. -/
def Obligations.SequentialAdvanceIsInstructionLength : Prop :=
  ∀ (i : Instr) (s t : State), exec i s = .next t →
    i.mnemonic ∉ [Mnemonic.jmp, .jeq, .jne, .call, .ret, .hlt] →
    (t.run = s.run ∧ t.pc = s.pc + BitVec.ofNat 8 i.lengthBytes) ∨ t = s.takeFault .registerIndexFault

/-! ### The instructions: result, frame and completion -/

/-- R90: LDI. -/
def Obligations.LdiLoadsImmediate : Prop :=
  ∀ (s : State) (opA opB : Byte),
    encode s.cfg.opMap (.ldi opA opB) = [s.cfg.opMap.ldi, opA, opB] ∧
    (s.selects opA → ∃ t, exec (.ldi opA opB) s = .next t ∧ t.reg (selected opA) = opB ∧ t.pc = s.pc + 3#8 ∧
      sameRegsBut [selected opA] s t ∧ sameMemory s t ∧ sameRest s t) ∧
    (¬ s.selects opA → exec (.ldi opA opB) s = .next (s.takeFault .registerIndexFault))

/-- R95: PRN. -/
def Obligations.PrnAppendsRegister : Prop :=
  ∀ (s : State) (opA : Byte),
    encode s.cfg.opMap (.prn opA) = [s.cfg.opMap.prn, opA] ∧
    (s.selects opA → ∃ t, exec (.prn opA) s = .next t ∧ t.out = s.out ++ [s.reg (selected opA)] ∧ t.pc = s.pc + 2#8 ∧
      sameRegs s t ∧ sameMemory s t ∧ t.cfg = s.cfg ∧ t.fl = s.fl ∧ t.run = s.run ∧ t.fault = s.fault) ∧
    (¬ s.selects opA → exec (.prn opA) s = .next (s.takeFault .registerIndexFault))

/-- R102: ADD. -/
def Obligations.AddIsModular : Prop :=
  ∀ (s : State) (opA opB : Byte),
    encode s.cfg.opMap (.add opA opB) = [s.cfg.opMap.add, opA, opB] ∧
    (s.selects opA → s.selects opB → ∃ t, exec (.add opA opB) s = .next t ∧
      (t.reg (selected opA)).toNat = ((s.reg (selected opA)).toNat + (s.reg (selected opB)).toNat) % 256 ∧
      t.pc = s.pc + 3#8 ∧ sameRegsBut [selected opA] s t ∧ sameMemory s t ∧ sameRest s t) ∧
    (¬ s.selects opA ∨ ¬ s.selects opB → exec (.add opA opB) s = .next (s.takeFault .registerIndexFault))

/-- R103: MUL. -/
def Obligations.MulIsModular : Prop :=
  ∀ (s : State) (opA opB : Byte),
    encode s.cfg.opMap (.mul opA opB) = [s.cfg.opMap.mul, opA, opB] ∧
    (s.selects opA → s.selects opB → ∃ t, exec (.mul opA opB) s = .next t ∧
      (t.reg (selected opA)).toNat = ((s.reg (selected opA)).toNat * (s.reg (selected opB)).toNat) % 256 ∧
      t.pc = s.pc + 3#8 ∧ sameRegsBut [selected opA] s t ∧ sameMemory s t ∧ sameRest s t) ∧
    (¬ s.selects opA ∨ ¬ s.selects opB → exec (.mul opA opB) s = .next (s.takeFault .registerIndexFault))

/-- R104: CMP. -/
def Obligations.CmpSetsFlag : Prop :=
  ∀ (s : State) (opA opB : Byte),
    encode s.cfg.opMap (.cmp opA opB) = [s.cfg.opMap.cmp, opA, opB] ∧
    (s.selects opA → s.selects opB → ∃ t, exec (.cmp opA opB) s = .next t ∧
      ((s.reg (selected opA)).toNat = (s.reg (selected opB)).toNat → t.fl = s.cfg.flE) ∧
      ((s.reg (selected opA)).toNat < (s.reg (selected opB)).toNat → t.fl = s.cfg.flL) ∧
      ((s.reg (selected opB)).toNat < (s.reg (selected opA)).toNat → t.fl = s.cfg.flG) ∧
      t.pc = s.pc + 3#8 ∧ sameRegs s t ∧ sameMemory s t ∧ t.cfg = s.cfg ∧ t.run = s.run ∧ t.fault = s.fault ∧
      t.out = s.out) ∧
    (¬ s.selects opA ∨ ¬ s.selects opB → exec (.cmp opA opB) s = .next (s.takeFault .registerIndexFault))

/-- R110: JMP. -/
def Obligations.JmpReplacesPc : Prop :=
  ∀ (s : State) (opA : Byte),
    encode s.cfg.opMap (.jmp opA) = [s.cfg.opMap.jmp, opA] ∧
    (s.selects opA → ∃ t, exec (.jmp opA) s = .next t ∧ t.pc = s.reg (selected opA) ∧
      sameRegs s t ∧ sameMemory s t ∧ sameRest s t) ∧
    (¬ s.selects opA → exec (.jmp opA) s = .next (s.takeFault .registerIndexFault))

/-- R111: JEQ. -/
def Obligations.JeqJumpsWhenEqual : Prop :=
  ∀ (s : State) (opA : Byte),
    encode s.cfg.opMap (.jeq opA) = [s.cfg.opMap.jeq, opA] ∧
    (s.fl = s.cfg.flE → s.selects opA → ∃ t, exec (.jeq opA) s = .next t ∧ t.pc = s.reg (selected opA) ∧
      sameRegs s t ∧ sameMemory s t ∧ sameRest s t) ∧
    (s.fl ≠ s.cfg.flE → ∃ t, exec (.jeq opA) s = .next t ∧ t.pc = s.pc + 2#8 ∧
      sameRegs s t ∧ sameMemory s t ∧ sameRest s t) ∧
    (s.fl = s.cfg.flE → ¬ s.selects opA → exec (.jeq opA) s = .next (s.takeFault .registerIndexFault))

/-- R112: JNE, and that it is the complement of JEQ. -/
def Obligations.JneJumpsWhenNotEqual : Prop :=
  ∀ (s : State) (opA : Byte),
    encode s.cfg.opMap (.jne opA) = [s.cfg.opMap.jne, opA] ∧
    (s.fl ≠ s.cfg.flE → s.selects opA → ∃ t, exec (.jne opA) s = .next t ∧ t.pc = s.reg (selected opA) ∧
      sameRegs s t ∧ sameMemory s t ∧ sameRest s t) ∧
    (s.fl = s.cfg.flE → ∃ t, exec (.jne opA) s = .next t ∧ t.pc = s.pc + 2#8 ∧
      sameRegs s t ∧ sameMemory s t ∧ sameRest s t) ∧
    (s.fl ≠ s.cfg.flE → ¬ s.selects opA → exec (.jne opA) s = .next (s.takeFault .registerIndexFault)) ∧
    (s.selects opA → ∃ t u, exec (.jeq opA) s = .next t ∧ exec (.jne opA) s = .next u ∧
      ((t.pc = s.reg (selected opA) ∧ u.pc = s.pc + 2#8) ∨ (t.pc = s.pc + 2#8 ∧ u.pc = s.reg (selected opA))))

/-- R120: PUSH. The register is read after the decrement, so a pushed stack pointer is the decremented one. -/
def Obligations.PushStoresBelowStackPointer : Prop :=
  ∀ (s : State) (opA : Byte),
    encode s.cfg.opMap (.push opA) = [s.cfg.opMap.push, opA] ∧
    (s.selects opA → ∃ t, exec (.push opA) s = .next t ∧ t.sp = s.sp - 1#8 ∧
      t.memRead (s.sp - 1#8) = (if selected opA = s.cfg.spIndex then s.sp - 1#8 else s.reg (selected opA)) ∧
      t.pc = s.pc + 2#8 ∧ sameRegsBut [s.cfg.spIndex] s t ∧ sameMemoryBut (s.sp - 1#8) s t ∧ sameRest s t) ∧
    (¬ s.selects opA → exec (.push opA) s = .next (s.takeFault .registerIndexFault))

/-- R121: POP. The destination is written before the increment, so a popped stack pointer is then incremented. -/
def Obligations.PopLoadsFromStackPointer : Prop :=
  ∀ (s : State) (opA : Byte),
    encode s.cfg.opMap (.pop opA) = [s.cfg.opMap.pop, opA] ∧
    (s.selects opA → ∃ t, exec (.pop opA) s = .next t ∧
      (selected opA ≠ s.cfg.spIndex → t.reg (selected opA) = s.memRead s.sp ∧ t.sp = s.sp + 1#8) ∧
      (selected opA = s.cfg.spIndex → t.sp = s.memRead s.sp + 1#8) ∧
      t.pc = s.pc + 2#8 ∧ sameRegsBut [selected opA, s.cfg.spIndex] s t ∧ sameMemory s t ∧ sameRest s t) ∧
    (¬ s.selects opA → exec (.pop opA) s = .next (s.takeFault .registerIndexFault))

/-- R130: CALL. The target register is read after the push, so a target in the stack pointer is the decremented one. -/
def Obligations.CallPushesReturnAddress : Prop :=
  ∀ (s : State) (opA : Byte),
    encode s.cfg.opMap (.call opA) = [s.cfg.opMap.call, opA] ∧
    (s.selects opA → ∃ t, exec (.call opA) s = .next t ∧ t.sp = s.sp - 1#8 ∧ t.memRead (s.sp - 1#8) = s.pc + 2#8 ∧
      t.pc = (if selected opA = s.cfg.spIndex then s.sp - 1#8 else s.reg (selected opA)) ∧
      sameRegsBut [s.cfg.spIndex] s t ∧ sameMemoryBut (s.sp - 1#8) s t ∧ sameRest s t) ∧
    (¬ s.selects opA → exec (.call opA) s = .next (s.takeFault .registerIndexFault))

/-- R131: RET. -/
def Obligations.RetPopsPc : Prop :=
  ∀ s : State,
    encode s.cfg.opMap .ret = [s.cfg.opMap.ret] ∧
    ∃ t, exec .ret s = .next t ∧ t.pc = s.memRead s.sp ∧ t.sp = s.sp + 1#8 ∧
      sameRegsBut [s.cfg.spIndex] s t ∧ sameMemory s t ∧ sameRest s t

/-- R140: HLT, for both values of `HLT_PC_ADVANCE` (decision D6, log entry 5). -/
def Obligations.HltStopsEngine : Prop :=
  ∀ s : State,
    encode s.cfg.opMap .hlt = [s.cfg.opMap.hlt] ∧
    ∃ t, exec .hlt s = .next t ∧ t.run = .halted ∧ t.pc = s.pc + BitVec.ofNat 8 s.cfg.hltPcAdvance.val ∧
      sameRegs s t ∧ sameMemory s t ∧ t.cfg = s.cfg ∧ t.fl = s.fl ∧ t.fault = s.fault ∧ t.out = s.out

/-! ### Laws -/

/-- A write of memory changes its own byte and nothing else (R50). -/
def Obligations.MemoryReadAfterWrite : Prop :=
  ∀ (s : State) (a v : Byte),
    (s.memWrite a v).memRead a = v ∧ sameMemoryBut a s (s.memWrite a v) ∧ sameRegs s (s.memWrite a v) ∧
    (s.memWrite a v).pc = s.pc ∧ sameRest s (s.memWrite a v)

/-- The canonical form of memory is the model's own (log entry 11). Memory in that form is its contents: two such memories that read alike at every address are the same data, so a
comparison of states is a comparison of what can be read. -/
def Obligations.CanonicalMemoryIsItsContents : Prop :=
  ∀ m n : Memory, m.wf = true → n.wf = true → (∀ a : Byte, m.read a.toNat = n.read a.toNat) → m = n

/-- ADD and MUL give the same number with their operands swapped, whichever of the two registers receives it. -/
def Obligations.AddAndMulCommute : Prop :=
  ∀ (s : State) (opA opB : Byte), s.selects opA → s.selects opB →
    (∃ t u, exec (.add opA opB) s = .next t ∧ exec (.add opB opA) s = .next u ∧
      t.reg (selected opA) = u.reg (selected opB) ∧
      (t.reg (selected opA)).toNat = ((s.reg (selected opA)).toNat + (s.reg (selected opB)).toNat) % 256) ∧
    (∃ t u, exec (.mul opA opB) s = .next t ∧ exec (.mul opB opA) s = .next u ∧
      t.reg (selected opA) = u.reg (selected opB))

/-- CMP sets exactly one of three distinct patterns, is idempotent, gives EQUAL exactly for equal registers, and gives
LESS_THAN exactly when the swapped CMP gives GREATER_THAN. That no pattern is 0x00 is decision D3 (log entry 3). -/
def Obligations.CompareLaws : Prop :=
  ∀ (s : State) (opA opB : Byte), s.cfg.wf = true → s.selects opA → s.selects opB →
    ∃ t u v, exec (.cmp opA opB) s = .next t ∧ exec (.cmp opA opB) t = .next u ∧ exec (.cmp opB opA) s = .next v ∧
      t.fl ≠ 0#8 ∧ (t.fl = s.cfg.flE ∨ t.fl = s.cfg.flL ∨ t.fl = s.cfg.flG) ∧ u.fl = t.fl ∧
      (t.fl = s.cfg.flE ↔ s.reg (selected opA) = s.reg (selected opB)) ∧ (t.fl = s.cfg.flL ↔ v.fl = s.cfg.flG)

/-- With the flag register as reset leaves it, JEQ is not taken and JNE is taken (R31, decision D3, log entry 3). -/
def Obligations.JumpsBeforeFirstCompare : Prop :=
  ∀ (s : State) (opA : Byte), s.cfg.wf = true → s.fl = 0#8 → s.selects opA →
    (∃ t, exec (.jeq opA) s = .next t ∧ t.pc = s.pc + 2#8) ∧
    (∃ t, exec (.jne opA) s = .next t ∧ t.pc = s.reg (selected opA))

/-- The literal order of the micro-operations with the stack pointer register as operand (R123, R132, decision D12, log
entry 14): PUSH stores the new SP, POP increments what it loaded, CALL jumps to the new SP. -/
def Obligations.StackPointerAsOperand : Prop :=
  ∀ (s : State) (opA : Byte), s.selects opA → selected opA = s.cfg.spIndex →
    (∃ t, exec (.push opA) s = .next t ∧ t.sp = s.sp - 1#8 ∧ t.memRead (s.sp - 1#8) = s.sp - 1#8) ∧
    (∃ t, exec (.pop opA) s = .next t ∧ t.sp = s.memRead s.sp + 1#8) ∧
    (∃ t, exec (.call opA) s = .next t ∧ t.sp = s.sp - 1#8 ∧ t.memRead (s.sp - 1#8) = s.pc + 2#8 ∧ t.pc = s.sp - 1#8)

/-- PUSH r followed by POP r' moves r to r' and leaves the stack pointer as it was, unless one of them is the stack pointer
or the pushed byte lands on the POP. -/
def Obligations.PushPopRoundTrip : Prop :=
  ∀ (s : State) (opA opB : Byte), s.run = .running → s.cfg.wf = true →
    (s.cfg.oorPolicy = .wrap ∨ s.pc.toNat ≤ 251) →
    s.memRead s.pc = s.cfg.opMap.push → s.memRead (s.pc + 1#8) = opA →
    s.memRead (s.pc + 2#8) = s.cfg.opMap.pop → s.memRead (s.pc + 3#8) = opB →
    s.selects opA → s.selects opB → selected opA ≠ s.cfg.spIndex → selected opB ≠ s.cfg.spIndex →
    s.sp - 1#8 ≠ s.pc + 2#8 → s.sp - 1#8 ≠ s.pc + 3#8 →
    ∃ t, Host.Core.run Sys2Proof.core 2 s = .next t ∧ t.reg (selected opB) = s.reg (selected opA) ∧ t.sp = s.sp ∧
      t.pc = s.pc + 4#8

/-- A RET that finds the stack pointer where a CALL left it, with the byte the CALL pushed, resumes at the instruction after
the CALL and leaves the stack pointer as it was before the CALL. -/
def Obligations.RetResumesAfterCall : Prop :=
  ∀ (s t u : State) (opA : Byte), s.selects opA → exec (.call opA) s = .next t →
    u.cfg = t.cfg → u.sp = t.sp → u.memRead t.sp = t.memRead t.sp →
    ∃ v, exec .ret u = .next v ∧ v.pc = s.pc + 2#8 ∧ v.sp = s.sp

/-- A byte that PUSH or CALL stores is what the very next fetch reads there, and the fetch reads every other byte as it was
before. -/
def Obligations.NextFetchSeesStore : Prop :=
  ∀ (s t : State) (opA stored : Byte), s.selects opA → (t.cfg.oorPolicy = .wrap ∨ t.pc.toNat ≤ 253) →
    (exec (.push opA) s = .next t ∧
        stored = (if selected opA = s.cfg.spIndex then s.sp - 1#8 else s.reg (selected opA))) ∨
      (exec (.call opA) s = .next t ∧ stored = s.pc + 2#8) →
    fetch t = some
      (if t.pc = s.sp - 1#8 then stored else s.memRead t.pc,
       if t.pc + 1#8 = s.sp - 1#8 then stored else s.memRead (t.pc + 1#8),
       if t.pc + 2#8 = s.sp - 1#8 then stored else s.memRead (t.pc + 2#8))

/-- The ALU fails at once on a request for any mnemonic but ADD, MUL and CMP, and on those three it touches neither memory
nor the pc. That the failure is a stop of the model is log entry 19. -/
def Obligations.AluRejectsOtherMnemonics : Prop :=
  ∀ (op : Mnemonic) (ra rb : RegIdx) (s : State),
    (op ∉ [Mnemonic.add, .mul, .cmp] → alu op ra rb s = .error .unsupportedAluOp) ∧
    (op ∈ [Mnemonic.add, .mul, .cmp] → ∃ t, alu op ra rb s = .ok t ∧ sameMemory s t ∧ t.pc = s.pc)

/-! ### Reset and load -/

/-- Reset from any state leaves the values of R46: registers 0 but SP at 0xF4, pc 0, FL 0, every cell 0, RUNNING, no fault
record, no output. Reset as an event that may come at any time is decision D9 (log entry 17). -/
def Obligations.ResetFromAnyState : Prop :=
  ∀ s : State,
    s.resetEvent.cfg = s.cfg ∧ s.resetEvent.sp = 0xF4#8 ∧
    (∀ r, r ≠ s.cfg.spIndex → s.resetEvent.reg r = 0#8) ∧ s.resetEvent.pc = 0#8 ∧ s.resetEvent.fl = 0#8 ∧
    (∀ a, s.resetEvent.memRead a = 0#8) ∧ s.resetEvent.run = .running ∧ s.resetEvent.fault = none ∧
    s.resetEvent.out = []

/-- The launch state: memory holds the image from address 0 and zeros above it, everything else is as reset leaves it, and
the invariant holds (its canonical form of memory is log entry 11); a longer image than 256 bytes is refused (decision D11,
log entry 16). -/
def Obligations.LaunchLoadsImage : Prop :=
  ∀ (c : Config) (image : List Byte),
    (image.length ≤ 256 → ∃ s, launch c image = .next s ∧ (∀ a : Byte, s.memRead a = image.getD a.toNat 0#8) ∧
      sameRegs (State.resetWith c) s ∧ s.pc = 0#8 ∧ sameRest (State.resetWith c) s ∧ (c.wf = true → s.invariant)) ∧
    (256 < image.length → launch c image = .refused .imageTooLong)

/-- With nothing loaded, the first step after reset takes UnknownOpcode of the byte 0x00 at address 0. It rests on the
default opcode bytes (log entry 1). -/
def Obligations.EmptyMemoryFaultsAtOnce : Prop :=
  ∃ t, step State.reset = .next t ∧ t.fault = some ⟨.unknownOpcode, 0x00#8, 0x00#8⟩ ∧ t.run = .faulted
end

