-- ==== Sys2Proof/Laws/Decode.lean ====
section
/-! SUPPORT. What the opcode lookup answers, and the injectivity of a well-formed `OPMAP`. -/

namespace Sys2Proof

theorem Mnemonic.mem_all (mn : Mnemonic) : mn ∈ Mnemonic.all := by cases mn <;> decide

theorem OpMap.byteOf_injective {m : OpMap} (h : m.wf = true) {x y : Mnemonic} (hxy : m.byteOf x = m.byteOf y) : x = y :=
  List.inj_on_of_nodup_map (by simpa [OpMap.wf] using h) x.mem_all y.mem_all hxy

theorem OpMap.byteOf_of_mnemonicOf {m : OpMap} {op : Byte} {mn : Mnemonic} (h : m.mnemonicOf op = some mn) :
    m.byteOf mn = op := by
  simpa using List.find?_some h

theorem OpMap.mnemonicOf_eq_none {m : OpMap} {op : Byte} : m.mnemonicOf op = none ↔ ∀ mn, m.byteOf mn ≠ op := by
  simp [OpMap.mnemonicOf, Mnemonic.mem_all]

theorem OpMap.mnemonicOf_byteOf {m : OpMap} (h : m.wf = true) (mn : Mnemonic) : m.mnemonicOf (m.byteOf mn) = some mn := by
  cases hf : m.mnemonicOf (m.byteOf mn) with
  | none => exact absurd rfl (OpMap.mnemonicOf_eq_none.mp hf mn)
  | some x => rw [OpMap.byteOf_injective h (OpMap.byteOf_of_mnemonicOf hf)]

/-- Everything decoding can answer. -/
theorem decode_cases (m : OpMap) (op a b : Byte) :
    (∃ mn, m.mnemonicOf op = some mn ∧ decode m op a b = .ok (Instr.assemble mn a b)) ∨
      (m.mnemonicOf op = none ∧ decode m op a b = .error (.unknownOpcode op)) := by
  unfold decode
  cases h : m.mnemonicOf op with
  | some mn => exact .inl ⟨mn, rfl, rfl⟩
  | none => exact .inr ⟨rfl, rfl⟩

@[simp] theorem Instr.mnemonic_assemble (mn : Mnemonic) (a b : Byte) : (Instr.assemble mn a b).mnemonic = mn := by
  cases mn <;> rfl

/-- The decoder keeps every operand byte an instruction uses. -/
theorem Instr.operands_assemble_prefix (mn : Mnemonic) (a b : Byte) : (Instr.assemble mn a b).operands <+: [a, b] := by
  cases mn <;> simp [Instr.assemble, Instr.operands]

end Sys2Proof
end

