-- ==== Sys2Proof/Laws/Word.lean ====
section
/-! SUPPORT. The reduction modulo 256 as arithmetic of bit vectors and of natural numbers. -/

namespace Sys2Proof

@[simp] theorem toNat_wrap8_nat (n : Nat) : (wrap8 (n : Int)).toNat = n % 256 := by
  simp only [wrap8, BitVec.toNat_ofInt]
  omega

theorem wrap8_nat (n : Nat) : wrap8 (n : Int) = BitVec.ofNat 8 n := by
  apply BitVec.eq_of_toNat_eq
  simp

/-- The positional increment is addition of bit vectors. -/
theorem wrap8_add_nat (b : Byte) (n : Nat) : wrap8 ((b.toNat : Int) + (n : Int)) = b + BitVec.ofNat 8 n := by
  apply BitVec.eq_of_toNat_eq
  rw [← Int.natCast_add, toNat_wrap8_nat]
  simp [BitVec.toNat_add]

@[simp] theorem wrap8_add_one (b : Byte) : wrap8 ((b.toNat : Int) + 1) = b + 1#8 := wrap8_add_nat b 1

@[simp] theorem wrap8_add_two (b : Byte) : wrap8 ((b.toNat : Int) + 2) = b + 2#8 := wrap8_add_nat b 2

@[simp] theorem wrap8_add_three (b : Byte) : wrap8 ((b.toNat : Int) + 3) = b + 3#8 := wrap8_add_nat b 3

@[simp] theorem wrap8_sub_one (b : Byte) : wrap8 ((b.toNat : Int) - 1) = b - 1#8 := by
  apply BitVec.eq_of_toNat_eq
  simp only [wrap8, BitVec.toNat_ofInt, BitVec.toNat_sub]
  have := b.isLt
  simp
  omega

end Sys2Proof
end

