-- ==== Sys2Proof/Laws/State.lean ====
section
/-! SUPPORT. One lemma per field per update of the state, so that no later proof unfolds a record update. -/

namespace Sys2Proof.Machine

variable (s : State) (i : RegIdx) (v a : Byte) (n : Nat) (c : Cause)

/-! ### setReg -/

@[simp] theorem setReg_cfg : (s.setReg i v).cfg = s.cfg := rfl
@[simp] theorem setReg_pc : (s.setReg i v).pc = s.pc := rfl
@[simp] theorem setReg_fl : (s.setReg i v).fl = s.fl := rfl
@[simp] theorem setReg_mem : (s.setReg i v).mem = s.mem := rfl
@[simp] theorem setReg_run : (s.setReg i v).run = s.run := rfl
@[simp] theorem setReg_fault : (s.setReg i v).fault = s.fault := rfl
@[simp] theorem setReg_out : (s.setReg i v).out = s.out := rfl
@[simp] theorem setReg_memRead : (s.setReg i v).memRead a = s.memRead a := rfl

/-- A register reads after a write of another or of itself. -/
theorem reg_setReg (j : RegIdx) : (s.setReg i v).reg j = if j = i then v else s.reg j := by
  simp only [State.reg, State.setReg, Fin.getElem_fin, Vector.getElem_set, Fin.ext_iff, eq_comm]

@[simp] theorem reg_setReg_self : (s.setReg i v).reg i = v := by simp [reg_setReg]

theorem reg_setReg_ne {j : RegIdx} (h : j ≠ i) : (s.setReg i v).reg j = s.reg j := by simp [reg_setReg, h]

/-! ### setPc and advancePc -/

@[simp] theorem setPc_cfg : (s.setPc v).cfg = s.cfg := rfl
@[simp] theorem setPc_regs : (s.setPc v).regs = s.regs := rfl
@[simp] theorem setPc_pc : (s.setPc v).pc = v := rfl
@[simp] theorem setPc_fl : (s.setPc v).fl = s.fl := rfl
@[simp] theorem setPc_mem : (s.setPc v).mem = s.mem := rfl
@[simp] theorem setPc_run : (s.setPc v).run = s.run := rfl
@[simp] theorem setPc_fault : (s.setPc v).fault = s.fault := rfl
@[simp] theorem setPc_out : (s.setPc v).out = s.out := rfl
@[simp] theorem setPc_reg : (s.setPc v).reg i = s.reg i := rfl
@[simp] theorem setPc_sp : (s.setPc v).sp = s.sp := rfl
@[simp] theorem setPc_memRead : (s.setPc v).memRead a = s.memRead a := rfl

@[simp] theorem advancePc_cfg : (s.advancePc n).cfg = s.cfg := rfl
@[simp] theorem advancePc_regs : (s.advancePc n).regs = s.regs := rfl
@[simp] theorem advancePc_fl : (s.advancePc n).fl = s.fl := rfl
@[simp] theorem advancePc_mem : (s.advancePc n).mem = s.mem := rfl
@[simp] theorem advancePc_run : (s.advancePc n).run = s.run := rfl
@[simp] theorem advancePc_fault : (s.advancePc n).fault = s.fault := rfl
@[simp] theorem advancePc_out : (s.advancePc n).out = s.out := rfl
@[simp] theorem advancePc_reg : (s.advancePc n).reg i = s.reg i := rfl
@[simp] theorem advancePc_sp : (s.advancePc n).sp = s.sp := rfl
@[simp] theorem advancePc_memRead : (s.advancePc n).memRead a = s.memRead a := rfl
@[simp] theorem advancePc_pc : (s.advancePc n).pc = s.pc + BitVec.ofNat 8 n := wrap8_add_nat s.pc n

/-! ### setFl, output, halt -/

@[simp] theorem setFl_cfg : (s.setFl v).cfg = s.cfg := rfl
@[simp] theorem setFl_regs : (s.setFl v).regs = s.regs := rfl
@[simp] theorem setFl_pc : (s.setFl v).pc = s.pc := rfl
@[simp] theorem setFl_fl : (s.setFl v).fl = v := rfl
@[simp] theorem setFl_mem : (s.setFl v).mem = s.mem := rfl
@[simp] theorem setFl_run : (s.setFl v).run = s.run := rfl
@[simp] theorem setFl_fault : (s.setFl v).fault = s.fault := rfl
@[simp] theorem setFl_out : (s.setFl v).out = s.out := rfl
@[simp] theorem setFl_reg : (s.setFl v).reg i = s.reg i := rfl
@[simp] theorem setFl_sp : (s.setFl v).sp = s.sp := rfl
@[simp] theorem setFl_memRead : (s.setFl v).memRead a = s.memRead a := rfl

@[simp] theorem output_cfg : (s.output v).cfg = s.cfg := rfl
@[simp] theorem output_regs : (s.output v).regs = s.regs := rfl
@[simp] theorem output_pc : (s.output v).pc = s.pc := rfl
@[simp] theorem output_fl : (s.output v).fl = s.fl := rfl
@[simp] theorem output_mem : (s.output v).mem = s.mem := rfl
@[simp] theorem output_run : (s.output v).run = s.run := rfl
@[simp] theorem output_fault : (s.output v).fault = s.fault := rfl
@[simp] theorem output_out : (s.output v).out = s.out ++ [v] := rfl
@[simp] theorem output_reg : (s.output v).reg i = s.reg i := rfl
@[simp] theorem output_memRead : (s.output v).memRead a = s.memRead a := rfl

@[simp] theorem halt_cfg : s.halt.cfg = s.cfg := rfl
@[simp] theorem halt_regs : s.halt.regs = s.regs := rfl
@[simp] theorem halt_pc : s.halt.pc = s.pc := rfl
@[simp] theorem halt_fl : s.halt.fl = s.fl := rfl
@[simp] theorem halt_mem : s.halt.mem = s.mem := rfl
@[simp] theorem halt_run : s.halt.run = .halted := rfl
@[simp] theorem halt_fault : s.halt.fault = s.fault := rfl
@[simp] theorem halt_out : s.halt.out = s.out := rfl
@[simp] theorem halt_reg : s.halt.reg i = s.reg i := rfl
@[simp] theorem halt_memRead : s.halt.memRead a = s.memRead a := rfl

/-! ### memWrite -/

@[simp] theorem memWrite_cfg : (s.memWrite a v).cfg = s.cfg := rfl
@[simp] theorem memWrite_regs : (s.memWrite a v).regs = s.regs := rfl
@[simp] theorem memWrite_pc : (s.memWrite a v).pc = s.pc := rfl
@[simp] theorem memWrite_fl : (s.memWrite a v).fl = s.fl := rfl
@[simp] theorem memWrite_mem : (s.memWrite a v).mem = s.mem.write a.toNat v := rfl
@[simp] theorem memWrite_run : (s.memWrite a v).run = s.run := rfl
@[simp] theorem memWrite_fault : (s.memWrite a v).fault = s.fault := rfl
@[simp] theorem memWrite_out : (s.memWrite a v).out = s.out := rfl
@[simp] theorem memWrite_reg : (s.memWrite a v).reg i = s.reg i := rfl
@[simp] theorem memWrite_sp : (s.memWrite a v).sp = s.sp := rfl

/-! ### takeFault -/

@[simp] theorem takeFault_cfg : (s.takeFault c).cfg = s.cfg := rfl
@[simp] theorem takeFault_regs : (s.takeFault c).regs = s.regs := rfl
@[simp] theorem takeFault_pc : (s.takeFault c).pc = s.pc := rfl
@[simp] theorem takeFault_fl : (s.takeFault c).fl = s.fl := rfl
@[simp] theorem takeFault_mem : (s.takeFault c).mem = s.mem := rfl
@[simp] theorem takeFault_run : (s.takeFault c).run = .faulted := rfl
@[simp] theorem takeFault_fault : (s.takeFault c).fault = some ⟨c, s.memRead s.pc, s.pc⟩ := rfl
@[simp] theorem takeFault_out : (s.takeFault c).out = s.out := rfl
@[simp] theorem takeFault_reg : (s.takeFault c).reg i = s.reg i := rfl
@[simp] theorem takeFault_memRead : (s.takeFault c).memRead a = s.memRead a := rfl

/-! ### The stack pointer: one slot of the register file -/

theorem sp_eq : s.sp = s.reg s.cfg.spIndex := rfl

@[simp] theorem decSp_cfg : s.decSp.cfg = s.cfg := rfl
@[simp] theorem decSp_pc : s.decSp.pc = s.pc := rfl
@[simp] theorem decSp_fl : s.decSp.fl = s.fl := rfl
@[simp] theorem decSp_mem : s.decSp.mem = s.mem := rfl
@[simp] theorem decSp_run : s.decSp.run = s.run := rfl
@[simp] theorem decSp_fault : s.decSp.fault = s.fault := rfl
@[simp] theorem decSp_out : s.decSp.out = s.out := rfl
@[simp] theorem decSp_memRead : s.decSp.memRead a = s.memRead a := rfl
@[simp] theorem decSp_sp : s.decSp.sp = s.sp - 1#8 := by
  rw [sp_eq, decSp_cfg, State.decSp, reg_setReg_self, wrap8_sub_one]
theorem decSp_reg : s.decSp.reg i = if i = s.cfg.spIndex then s.sp - 1#8 else s.reg i := by
  rw [State.decSp, reg_setReg, wrap8_sub_one]

@[simp] theorem incSp_cfg : s.incSp.cfg = s.cfg := rfl
@[simp] theorem incSp_pc : s.incSp.pc = s.pc := rfl
@[simp] theorem incSp_fl : s.incSp.fl = s.fl := rfl
@[simp] theorem incSp_mem : s.incSp.mem = s.mem := rfl
@[simp] theorem incSp_run : s.incSp.run = s.run := rfl
@[simp] theorem incSp_fault : s.incSp.fault = s.fault := rfl
@[simp] theorem incSp_out : s.incSp.out = s.out := rfl
@[simp] theorem incSp_memRead : s.incSp.memRead a = s.memRead a := rfl
@[simp] theorem incSp_sp : s.incSp.sp = s.sp + 1#8 := by
  rw [sp_eq, incSp_cfg, State.incSp, reg_setReg_self, wrap8_add_one]
theorem incSp_reg : s.incSp.reg i = if i = s.cfg.spIndex then s.sp + 1#8 else s.reg i := by
  rw [State.incSp, reg_setReg, wrap8_add_one]

/-! ### The state after reset -/

@[simp] theorem resetWith_cfg (g : Config) : (State.resetWith g).cfg = g := rfl
@[simp] theorem resetWith_pc (g : Config) : (State.resetWith g).pc = 0#8 := rfl
@[simp] theorem resetWith_fl (g : Config) : (State.resetWith g).fl = 0#8 := rfl
@[simp] theorem resetWith_mem (g : Config) : (State.resetWith g).mem = [] := rfl
@[simp] theorem resetWith_run (g : Config) : (State.resetWith g).run = .running := rfl
@[simp] theorem resetWith_fault (g : Config) : (State.resetWith g).fault = none := rfl
@[simp] theorem resetWith_out (g : Config) : (State.resetWith g).out = [] := rfl
@[simp] theorem resetWith_memRead (g : Config) : (State.resetWith g).memRead a = 0#8 := rfl
theorem resetWith_reg (g : Config) :
    (State.resetWith g).reg i = if i = g.spIndex then spReset else 0#8 := by
  simp only [State.reg, State.resetWith, resetRegs, Fin.getElem_fin, Vector.getElem_set, Fin.ext_iff,
    Vector.getElem_replicate, eq_comm]

end Sys2Proof.Machine
end

