-- ==== Sys2Proof/Laws/Memory.lean ====
section
/-! SUPPORT. Memory: a read after a write, and the canonical form that every memory operation keeps. -/

namespace Sys2Proof.Machine

variable {m : Memory} {a b lo k : Nat} {v : Byte}

/-! ### Read after write -/

theorem Memory.read_erase (m : Memory) (a b : Nat) :
    Memory.read (m.erase a) b = if b = a then Memory.unlisted else Memory.read m b := by
  induction m with
  | nil => simp [Memory.erase, Memory.read]
  | cons c rest ih =>
    obtain ⟨k, w⟩ := c
    unfold Memory.erase at ih ⊢
    by_cases hk : k = a
    · subst hk
      by_cases hb : b = k
      · subst hb; simpa using ih
      · have hkb : k ≠ b := fun h => hb h.symm
        simpa [Memory.read, hb, hkb] using ih
    · by_cases hkb : k = b
      · subst hkb; simp [Memory.read, hk]
      · simpa [Memory.read, hk, hkb] using ih

theorem Memory.read_insert (hne : ∀ c ∈ m, c.1 ≠ a) (v : Byte) (b : Nat) :
    Memory.read (m.insert a v) b = if b = a then v else Memory.read m b := by
  induction m with
  | nil => simp [Memory.insert, Memory.read, eq_comm]
  | cons c rest ih =>
    obtain ⟨k, w⟩ := c
    have hka : k ≠ a := hne (k, w) (by simp)
    have ih := ih fun c hc => hne c (by simp [hc])
    unfold Memory.insert
    split
    · by_cases hb : b = a
      · subst hb; simp [Memory.read]
      · have hab : a ≠ b := fun h => hb h.symm
        simp [Memory.read, hab, hb]
    · by_cases hkb : k = b
      · subst hkb; simp [Memory.read, hka]
      · simpa [Memory.read, hkb] using ih

theorem Memory.erase_lacks (m : Memory) (a : Nat) : ∀ c ∈ m.erase a, c.1 ≠ a := by
  intro c hc
  simpa using (List.mem_filter.mp hc).2

/-- A read after a write, for every list and not only those in canonical form. -/
theorem Memory.read_write (m : Memory) (a b : Nat) (v : Byte) :
    Memory.read (m.write a v) b = if b = a then v else Memory.read m b := by
  unfold Memory.write
  split
  · next h => subst h; exact Memory.read_erase m a b
  · rw [Memory.read_insert (Memory.erase_lacks m a)]
    by_cases hb : b = a
    · simp [hb]
    · simp [hb, Memory.read_erase]

theorem memRead_memWrite (s : State) (a b v : Byte) :
    (s.memWrite a v).memRead b = if b = a then v else s.memRead b := by
  simp only [State.memRead, memWrite_mem, Memory.read_write, BitVec.toNat_inj]

@[simp] theorem memRead_memWrite_self (s : State) (a v : Byte) : (s.memWrite a v).memRead a = v := by
  simp [memRead_memWrite]

theorem memRead_memWrite_ne (s : State) {a b : Byte} (v : Byte) (h : b ≠ a) :
    (s.memWrite a v).memRead b = s.memRead b := by
  simp [memRead_memWrite, h]

/-! ### The canonical form -/

theorem Memory.wfFrom_cons {w : Byte} {rest : Memory} :
    Memory.wfFrom lo ((k, w) :: rest) = true ↔
      lo ≤ k ∧ k < 256 ∧ w ≠ Memory.unlisted ∧ Memory.wfFrom (k + 1) rest = true := by
  simp [Memory.wfFrom, and_assoc]

theorem Memory.wfFrom_mono (h : lo ≤ k) (hm : Memory.wfFrom k m = true) : Memory.wfFrom lo m = true := by
  cases m with
  | nil => rfl
  | cons c rest =>
    obtain ⟨j, w⟩ := c
    rw [Memory.wfFrom_cons] at hm ⊢
    exact ⟨h.trans hm.1, hm.2⟩

theorem Memory.wfFrom_erase (hm : Memory.wfFrom lo m = true) (a : Nat) : Memory.wfFrom lo (m.erase a) = true := by
  induction m generalizing lo with
  | nil => rfl
  | cons c rest ih =>
    obtain ⟨k, w⟩ := c
    rw [Memory.wfFrom_cons] at hm
    obtain ⟨h1, h2, h3, h4⟩ := hm
    have ih := ih h4
    unfold Memory.erase at ih ⊢
    by_cases hk : k = a
    · simpa [List.filter_cons, hk] using Memory.wfFrom_mono (by omega) ih
    · rw [List.filter_cons_of_pos (by simpa using hk), Memory.wfFrom_cons]
      exact ⟨h1, h2, h3, ih⟩

theorem Memory.wfFrom_insert (hm : Memory.wfFrom lo m = true) (hlo : lo ≤ a) (ha : a < 256) (hv : v ≠ Memory.unlisted)
    (hne : ∀ c ∈ m, c.1 ≠ a) : Memory.wfFrom lo (m.insert a v) = true := by
  induction m generalizing lo with
  | nil => simp [Memory.insert, Memory.wfFrom, hlo, ha, hv]
  | cons c rest ih =>
    obtain ⟨k, w⟩ := c
    have hka : k ≠ a := hne (k, w) (by simp)
    rw [Memory.wfFrom_cons] at hm
    obtain ⟨h1, h2, h3, h4⟩ := hm
    unfold Memory.insert
    split
    · next h =>
      rw [Memory.wfFrom_cons, Memory.wfFrom_cons]
      exact ⟨hlo, ha, hv, h, h2, h3, h4⟩
    · next h =>
      rw [Memory.wfFrom_cons]
      exact ⟨h1, h2, h3, ih h4 (by omega) fun c hc => hne c (by simp [hc])⟩

/-- A write keeps the canonical form. -/
theorem Memory.wf_write (hm : Memory.wf m = true) (ha : a < 256) (v : Byte) : Memory.wf (m.write a v) = true := by
  unfold Memory.wf Memory.write at *
  split
  · exact Memory.wfFrom_erase hm a
  · next hv => exact Memory.wfFrom_insert (Memory.wfFrom_erase hm a) (Nat.zero_le a) ha hv (Memory.erase_lacks m a)

theorem memWrite_keeps_wf {s : State} (h : s.mem.wf = true) (a v : Byte) : (s.memWrite a v).mem.wf = true :=
  Memory.wf_write h a.isLt v

theorem resetWith_mem_wf (c : Config) : (State.resetWith c).mem.wf = true := rfl

end Sys2Proof.Machine
end

