-- ==== Sys2Proof/Laws/Ops.lean ====
section
/-! SUPPORT. What each shared operation can do, said once: operands, fetch, the push, the ALU, a step. -/

namespace Sys2Proof.Machine

variable {s t : State} {b opA opB : Byte}

/-! ### Register operands -/

/-- `ridx` selects a register exactly where R9 raises nothing, and it is then the one of bits 2:0. -/
theorem ridx_of_selects (h : s.selects b) : ridx s.cfg b = some (selected b) := by
  unfold State.selects at h
  unfold ridx selected
  cases hp : s.cfg.oorPolicy with
  | wrap => rfl
  | fault =>
    have hb : b.toNat ≤ 7 := by simpa [hp] using h
    simp [hb, Nat.mod_eq_of_lt (Nat.lt_succ_of_le hb)]

theorem ridx_of_not_selects (h : ¬ s.selects b) : ridx s.cfg b = none := by
  unfold State.selects at h
  unfold ridx
  cases hp : s.cfg.oorPolicy with
  | wrap => exact absurd (Or.inl hp) h
  | fault =>
    have hb : ¬ b.toNat ≤ 7 := fun hb => h (Or.inr hb)
    simp [hb]

theorem withReg_of_selects {f : RegIdx → Host.Outcome State Fault Refusal} (h : s.selects b) :
    withReg b s f = f (selected b) := by
  simp [withReg, ridx_of_selects h]

theorem withReg_of_not_selects {f : RegIdx → Host.Outcome State Fault Refusal} (h : ¬ s.selects b) :
    withReg b s f = .next (s.takeFault .registerIndexFault) := by
  simp [withReg, ridx_of_not_selects h]

/-- Everything a register operand can lead to. -/
theorem withReg_next {f : RegIdx → Host.Outcome State Fault Refusal} (h : withReg b s f = .next t) :
    (s.selects b ∧ f (selected b) = .next t) ∨ (¬ s.selects b ∧ t = s.takeFault .registerIndexFault) := by
  by_cases hs : s.selects b
  · exact .inl ⟨hs, by rwa [withReg_of_selects hs] at h⟩
  · rw [withReg_of_not_selects hs] at h
    exact .inr ⟨hs, by injection h with h; exact h.symm⟩

/-! ### Fetch -/

theorem opaddr_of_low {c : Config} {pc : Byte} {k : Nat} (h : c.oorPolicy = .wrap ∨ pc.toNat + k ≤ 255) :
    opaddr c pc k = some (pc + BitVec.ofNat 8 k) := by
  unfold opaddr
  cases hp : c.oorPolicy with
  | wrap => simp [wrap8_add_nat]
  | fault =>
    have hk : ¬ pc.toNat + k > 255 := by
      rcases h with h | h
      · simp [hp] at h
      · omega
    simp [hk, wrap8_add_nat]

/-- The fetch wherever it raises nothing. -/
theorem fetch_of_low (h : s.cfg.oorPolicy = .wrap ∨ s.pc.toNat ≤ 253) :
    fetch s = some (s.memRead s.pc, s.memRead (s.pc + 1#8), s.memRead (s.pc + 2#8)) := by
  unfold fetch
  rw [opaddr_of_low (k := 1) (h.imp_right (by omega)), opaddr_of_low (k := 2) (h.imp_right (by omega))]

theorem fetch_of_high (hp : s.cfg.oorPolicy = .fault) (h : 254 ≤ s.pc.toNat) : fetch s = none := by
  unfold fetch
  have h2 : opaddr s.cfg s.pc 2 = none := by simp [opaddr, hp]; omega
  rw [h2]
  cases opaddr s.cfg s.pc 1 <;> rfl

/-- Everything a fetch can deliver. -/
theorem fetch_some {o a1 a2 : Byte} (h : fetch s = some (o, a1, a2)) :
    (s.cfg.oorPolicy = .wrap ∨ s.pc.toNat ≤ 253) ∧
      o = s.memRead s.pc ∧ a1 = s.memRead (s.pc + 1#8) ∧ a2 = s.memRead (s.pc + 2#8) := by
  by_cases hl : s.cfg.oorPolicy = .wrap ∨ s.pc.toNat ≤ 253
  · rw [fetch_of_low hl] at h
    simp only [Option.some.injEq, Prod.mk.injEq] at h
    exact ⟨hl, h.1.symm, h.2.1.symm, h.2.2.symm⟩
  · rw [not_or] at hl
    have hp : s.cfg.oorPolicy = .fault := by
      cases hc : s.cfg.oorPolicy with
      | wrap => exact absurd hc hl.1
      | fault => rfl
    rw [fetch_of_high hp (by omega)] at h
    cases h

/-! ### Push -/

variable {w : State → Byte}

@[simp] theorem pushWith_cfg : (s.pushWith w).cfg = s.cfg := rfl
@[simp] theorem pushWith_pc : (s.pushWith w).pc = s.pc := rfl
@[simp] theorem pushWith_fl : (s.pushWith w).fl = s.fl := rfl
@[simp] theorem pushWith_run : (s.pushWith w).run = s.run := rfl
@[simp] theorem pushWith_fault : (s.pushWith w).fault = s.fault := rfl
@[simp] theorem pushWith_out : (s.pushWith w).out = s.out := rfl
@[simp] theorem pushWith_sp : (s.pushWith w).sp = s.sp - 1#8 := by simp [State.pushWith]
theorem pushWith_reg (i : RegIdx) : (s.pushWith w).reg i = if i = s.cfg.spIndex then s.sp - 1#8 else s.reg i := by
  rw [State.pushWith, memWrite_reg, decSp_reg]

/-- The pushed byte lands at the new stack pointer and no other byte changes. -/
theorem pushWith_memRead (a : Byte) :
    (s.pushWith w).memRead a = if a = s.sp - 1#8 then w s.decSp else s.memRead a := by
  rw [State.pushWith, memRead_memWrite, decSp_sp, decSp_memRead]

theorem pushWith_keeps_wf (h : s.mem.wf = true) : (s.pushWith w).mem.wf = true :=
  memWrite_keeps_wf (s := s.decSp) h _ _

/-! ### The ALU -/

/-- Everything an ALU instruction can do. -/
theorem aluInstr_next {op : Mnemonic} (h : aluInstr op opA opB s = .next t) :
    (s.selects opA ∧ s.selects opB ∧ ∃ u, alu op (selected opA) (selected opB) s = .ok u ∧ t = u.advancePc 3) ∨
      ((¬ s.selects opA ∨ ¬ s.selects opB) ∧ t = s.takeFault .registerIndexFault) := by
  rcases withReg_next h with ⟨ha, h⟩ | ⟨ha, h⟩
  · rcases withReg_next h with ⟨hb, h⟩ | ⟨hb, h⟩
    · cases hu : alu op (selected opA) (selected opB) s with
      | ok u => rw [hu] at h; injection h with h; exact .inl ⟨ha, hb, u, rfl, h.symm⟩
      | error f => rw [hu] at h; cases h
    · exact .inr ⟨.inr hb, h⟩
  · exact .inr ⟨.inl ha, h⟩

theorem aluInstr_of_selects {op : Mnemonic} {u : State} (ha : s.selects opA) (hb : s.selects opB)
    (hu : alu op (selected opA) (selected opB) s = .ok u) : aluInstr op opA opB s = .next (u.advancePc 3) := by
  simp [aluInstr, withReg_of_selects ha, withReg_of_selects hb, hu]

theorem aluInstr_of_not_selects {op : Mnemonic} (h : ¬ s.selects opA ∨ ¬ s.selects opB) :
    aluInstr op opA opB s = .next (s.takeFault .registerIndexFault) := by
  by_cases ha : s.selects opA
  · have hb : ¬ s.selects opB := h.resolve_left fun h => h ha
    simp [aluInstr, withReg_of_selects ha, withReg_of_not_selects hb]
  · simp [aluInstr, withReg_of_not_selects ha]

/-! ### A step -/

theorem step_of_ok {i : Instr} (hr : s.run = .running) (h : fetchDecode s = .ok i) : step s = exec i s := by
  simp [step, hr, h]

theorem step_of_error {c : Cause} (hr : s.run = .running) (h : fetchDecode s = .error c) :
    step s = .next (s.takeFault c) := by
  simp [step, hr, h]

theorem step_not_running (hr : s.run ≠ .running) : step s = .next s := by
  cases h : s.run with
  | running => exact absurd h hr
  | halted => simp [step, h, stopped]
  | faulted => simp [step, h, stopped]

/-- Everything a step can do. -/
theorem step_next (h : step s = .next t) :
    (s.run ≠ .running ∧ t = s) ∨
      (s.run = .running ∧ ∃ c, fetchDecode s = .error c ∧ t = s.takeFault c) ∨
      (s.run = .running ∧ ∃ i, fetchDecode s = .ok i ∧ exec i s = .next t) := by
  by_cases hr : s.run = .running
  · cases hf : fetchDecode s with
    | error c => rw [step_of_error hr hf] at h; injection h with h; exact .inr (.inl ⟨hr, c, rfl, h.symm⟩)
    | ok i => rw [step_of_ok hr hf] at h; exact .inr (.inr ⟨hr, i, rfl, h⟩)
  · rw [step_not_running hr] at h
    injection h with h
    exact .inl ⟨hr, h.symm⟩

end Sys2Proof.Machine
end

