-- ==== Sys2Proof/Laws/Exec.lean ====
section
/-! SUPPORT. Everything `exec` can do, said once: the effect of an instruction whose accessed register operands select, or
the one fault entry; and everything fetching and decoding can answer. -/

namespace Sys2Proof.Machine

variable {s t : State} {i : Instr}

/-- The register operand bytes an instruction accesses in `s`: a conditional jump that is not taken accesses none (R114). -/
def accessed (s : State) : Instr → List Byte
  | .ldi a _ => [a]
  | .prn a => [a]
  | .add a b => [a, b]
  | .mul a b => [a, b]
  | .cmp a b => [a, b]
  | .jmp a => [a]
  | .jeq a => if s.flagEqual then [a] else []
  | .jne a => if s.flagEqual then [] else [a]
  | .push a => [a]
  | .pop a => [a]
  | .call a => [a]
  | .ret => []
  | .hlt => []

/-- The state after an instruction whose accessed register operands all select. -/
def effect (s : State) : Instr → State
  | .ldi a b => (s.setReg (selected a) b).advancePc 3
  | .prn a => (s.output (s.reg (selected a))).advancePc 2
  | .add a b => (s.setReg (selected a) (wrap8 ((s.reg (selected a)).toNat + (s.reg (selected b)).toNat))).advancePc 3
  | .mul a b => (s.setReg (selected a) (wrap8 ((s.reg (selected a)).toNat * (s.reg (selected b)).toNat))).advancePc 3
  | .cmp a b => (s.setFl (compareFlag s.cfg (s.reg (selected a)) (s.reg (selected b)))).advancePc 3
  | .jmp a => s.setPc (s.reg (selected a))
  | .jeq a => if s.flagEqual then s.setPc (s.reg (selected a)) else s.advancePc 2
  | .jne a => if s.flagEqual then s.advancePc 2 else s.setPc (s.reg (selected a))
  | .push a => (s.pushWith fun u => u.reg (selected a)).advancePc 2
  | .pop a => (s.setReg (selected a) (s.memRead s.sp)).incSp.advancePc 2
  | .call a => (s.pushWith returnAddress).setPc ((s.pushWith returnAddress).reg (selected a))
  | .ret => (s.setPc (s.memRead s.sp)).incSp
  | .hlt => s.halt.advancePc s.cfg.hltPcAdvance.val

theorem exec_of_selects (h : ∀ b ∈ accessed s i, s.selects b) : exec i s = .next (effect s i) := by
  cases i with
  | ret => rfl
  | hlt => rfl
  | add a b => exact aluInstr_of_selects (op := .add) (h a (by simp [accessed])) (h b (by simp [accessed])) rfl
  | mul a b => exact aluInstr_of_selects (op := .mul) (h a (by simp [accessed])) (h b (by simp [accessed])) rfl
  | cmp a b => exact aluInstr_of_selects (op := .cmp) (h a (by simp [accessed])) (h b (by simp [accessed])) rfl
  | jeq a =>
    cases hf : s.flagEqual with
    | true => simpa [exec, execJeq, jumpIf, jumpTo, hf, effect] using withReg_of_selects (h a (by simp [accessed, hf]))
    | false => simp [exec, execJeq, jumpIf, hf, effect]
  | jne a =>
    cases hf : s.flagEqual with
    | true => simp [exec, execJne, jumpIf, hf, effect]
    | false => simpa [exec, execJne, jumpIf, jumpTo, hf, effect] using withReg_of_selects (h a (by simp [accessed, hf]))
  | ldi a b => exact withReg_of_selects (h a (by simp [accessed]))
  | prn a => exact withReg_of_selects (h a (by simp [accessed]))
  | jmp a => exact withReg_of_selects (h a (by simp [accessed]))
  | push a => exact withReg_of_selects (h a (by simp [accessed]))
  | pop a => exact withReg_of_selects (h a (by simp [accessed]))
  | call a => exact withReg_of_selects (h a (by simp [accessed]))

theorem operand_fails {a c b : Byte} (hb : b ∈ [a, c]) (hs : ¬ s.selects b) : ¬ s.selects a ∨ ¬ s.selects c := by
  simp only [List.mem_cons, List.not_mem_nil, or_false] at hb
  rcases hb with rfl | rfl
  · exact .inl hs
  · exact .inr hs

theorem exec_of_not_selects (h : ∃ b ∈ accessed s i, ¬ s.selects b) :
    exec i s = .next (s.takeFault .registerIndexFault) := by
  obtain ⟨b, hb, hs⟩ := h
  cases i with
  | ret => simp [accessed] at hb
  | hlt => simp [accessed] at hb
  | add a c => exact aluInstr_of_not_selects (op := .add) (operand_fails hb hs)
  | mul a c => exact aluInstr_of_not_selects (op := .mul) (operand_fails hb hs)
  | cmp a c => exact aluInstr_of_not_selects (op := .cmp) (operand_fails hb hs)
  | jeq a =>
    cases hf : s.flagEqual with
    | true =>
      obtain rfl : b = a := by simpa [accessed, hf] using hb
      simpa [exec, execJeq, jumpIf, jumpTo, hf] using withReg_of_not_selects hs
    | false => simp [accessed, hf] at hb
  | jne a =>
    cases hf : s.flagEqual with
    | true => simp [accessed, hf] at hb
    | false =>
      obtain rfl : b = a := by simpa [accessed, hf] using hb
      simpa [exec, execJne, jumpIf, jumpTo, hf] using withReg_of_not_selects hs
  | ldi a c => obtain rfl : b = a := by simpa [accessed] using hb
               exact withReg_of_not_selects hs
  | prn a => obtain rfl : b = a := by simpa [accessed] using hb
             exact withReg_of_not_selects hs
  | jmp a => obtain rfl : b = a := by simpa [accessed] using hb
             exact withReg_of_not_selects hs
  | push a => obtain rfl : b = a := by simpa [accessed] using hb
              exact withReg_of_not_selects hs
  | pop a => obtain rfl : b = a := by simpa [accessed] using hb
             exact withReg_of_not_selects hs
  | call a => obtain rfl : b = a := by simpa [accessed] using hb
              exact withReg_of_not_selects hs

/-- Everything an instruction can do. -/
theorem exec_cases (i : Instr) (s : State) :
    ((∀ b ∈ accessed s i, s.selects b) ∧ exec i s = .next (effect s i)) ∨
      ((∃ b ∈ accessed s i, ¬ s.selects b) ∧ exec i s = .next (s.takeFault .registerIndexFault)) := by
  by_cases h : ∀ b ∈ accessed s i, s.selects b
  · exact .inl ⟨h, exec_of_selects h⟩
  · have h : ∃ b ∈ accessed s i, ¬ s.selects b := by simpa using h
    exact .inr ⟨h, exec_of_not_selects h⟩

/-- The same, read from a next state. -/
theorem exec_next (h : exec i s = .next t) :
    ((∀ b ∈ accessed s i, s.selects b) ∧ t = effect s i) ∨
      ((∃ b ∈ accessed s i, ¬ s.selects b) ∧ t = s.takeFault .registerIndexFault) := by
  rcases exec_cases i s with ⟨hs, he⟩ | ⟨hs, he⟩
  · rw [he] at h; injection h with h; exact .inl ⟨hs, h.symm⟩
  · rw [he] at h; injection h with h; exact .inr ⟨hs, h.symm⟩

/-! ### What an effect keeps -/

@[simp] theorem effect_cfg : (effect s i).cfg = s.cfg := by
  cases i <;> simp only [effect] <;> (try split) <;> rfl

@[simp] theorem effect_fault : (effect s i).fault = s.fault := by
  cases i <;> simp only [effect] <;> (try split) <;> rfl

theorem effect_run : (effect s i).run = if i = .hlt then .halted else s.run := by
  cases i <;> simp only [effect, reduceCtorEq, if_true, if_false] <;> (try split) <;> rfl

theorem effect_mem_wf (h : s.mem.wf = true) : (effect s i).mem.wf = true := by
  cases i <;> simp only [effect, advancePc_mem, setPc_mem] <;> (try split) <;> first | exact h | exact pushWith_keeps_wf h

/-! ### Fetching and decoding -/

theorem fetchDecode_of_decode (h : s.cfg.oorPolicy = .wrap ∨ s.pc.toNat ≤ 253)
    (hd : decode s.cfg.opMap (s.memRead s.pc) (s.memRead (s.pc + 1#8)) (s.memRead (s.pc + 2#8)) = .ok i) :
    fetchDecode s = .ok i := by
  rw [fetchDecode, fetch_of_low h]
  simp [hd]

theorem fetchDecode_ok (h : fetchDecode s = .ok i) :
    (s.cfg.oorPolicy = .wrap ∨ s.pc.toNat ≤ 253) ∧
      decode s.cfg.opMap (s.memRead s.pc) (s.memRead (s.pc + 1#8)) (s.memRead (s.pc + 2#8)) = .ok i := by
  unfold fetchDecode at h
  split at h
  · cases h
  · next hf =>
    obtain ⟨h1, rfl, rfl, rfl⟩ := fetch_some hf
    split at h
    · cases h
    · next hd => injection h with h; subst h; exact ⟨h1, hd⟩

theorem fetchDecode_error {c : Cause} (h : fetchDecode s = .error c) :
    (c = .addressFault ∧ s.cfg.oorPolicy = .fault ∧ 254 ≤ s.pc.toNat) ∨
      (c = .unknownOpcode ∧ (s.cfg.oorPolicy = .wrap ∨ s.pc.toNat ≤ 253) ∧
        ∀ mn, s.cfg.opMap.byteOf mn ≠ s.memRead s.pc) := by
  unfold fetchDecode at h
  split at h
  · next hf =>
    injection h with h
    have hl : ¬ (s.cfg.oorPolicy = .wrap ∨ s.pc.toNat ≤ 253) := fun hl => by rw [fetch_of_low hl] at hf; cases hf
    rw [not_or] at hl
    refine .inl ⟨h.symm, ?_, by omega⟩
    cases hc : s.cfg.oorPolicy with
    | wrap => exact absurd hc hl.1
    | fault => rfl
  · next hf =>
    obtain ⟨h1, rfl, -, -⟩ := fetch_some hf
    split at h
    · next hd =>
      injection h with h
      refine .inr ⟨h.symm, h1, ?_⟩
      rcases decode_cases s.cfg.opMap (s.memRead s.pc) _ _ with ⟨mn, -, h2⟩ | ⟨h2, -⟩
      · rw [h2] at hd; cases hd
      · exact OpMap.mnemonicOf_eq_none.mp h2
    · cases h

end Sys2Proof.Machine
end

