-- ==== Sys2Proof/Laws/PerInstr.lean ====
section
/-! SUPPORT. A statement for all instructions, one lemma per constructor: the encoding of an instruction has the length the
spec's table gives it (R73, R77). -/

namespace Sys2Proof.Laws.EncodeLength

/-- The encoder writes as many bytes as R77 gives the instruction, whatever the `OPMAP`. -/
def Statement (i : Instr) : Prop := ∀ m : OpMap, (encode m i).length = i.lengthBytes

theorem ldi (opA opB : Byte) : Statement (.ldi opA opB) := fun _ => rfl
theorem prn (opA : Byte) : Statement (.prn opA) := fun _ => rfl
theorem add (opA opB : Byte) : Statement (.add opA opB) := fun _ => rfl
theorem mul (opA opB : Byte) : Statement (.mul opA opB) := fun _ => rfl
theorem cmp (opA opB : Byte) : Statement (.cmp opA opB) := fun _ => rfl
theorem jmp (opA : Byte) : Statement (.jmp opA) := fun _ => rfl
theorem jeq (opA : Byte) : Statement (.jeq opA) := fun _ => rfl
theorem jne (opA : Byte) : Statement (.jne opA) := fun _ => rfl
theorem push (opA : Byte) : Statement (.push opA) := fun _ => rfl
theorem pop (opA : Byte) : Statement (.pop opA) := fun _ => rfl
theorem call (opA : Byte) : Statement (.call opA) := fun _ => rfl
theorem ret : Statement .ret := fun _ => rfl
theorem hlt : Statement .hlt := fun _ => rfl

end Sys2Proof.Laws.EncodeLength
end

