-- ==== Sys2Proof/Tests/Slice0.lean ====
section
/-! SUPPORT. The model's own tests. Expected values are those of `95_test_vectors.md` (the row is named in each comment) or
are written out by hand from the encodings of `30_encoding.md`; the witnesses show that the hypotheses of the statements can be met. -/

namespace Sys2Proof.Tests

open Sys2Proof.Machine

/-! ### Small states -/

/-- The default parameters under the Fault policy. -/
def faultConfig : Config := { defaultConfig with oorPolicy := .fault }

/-- The state after reset with three bytes at a program counter. -/
def stateAt (c : Config) (pc b0 b1 b2 : Byte) : State :=
  ((({ State.resetWith c with pc := pc } : State).memWrite pc b0).memWrite (pc + 1#8) b1).memWrite (pc + 2#8) b2

/-- The next state, if there is one. -/
def nextOf : Host.Outcome State Fault Refusal → Option State
  | .next s => some s
  | .fault _ => none
  | .refused _ => none

/-! ### Well-formedness: each check refuses an ill-formed term -/

theorem test_default_config_wf : defaultConfig.wf = true := by decide
theorem test_wf_refuses_equal_opcodes : OpMap.wf { defaultOpMap with hlt := 0x11#8 } = false := by decide
theorem test_wf_refuses_equal_flags : Config.wf { defaultConfig with flL := 0x02#8 } = false := by decide
theorem test_wf_refuses_zero_flag : Config.wf { defaultConfig with flE := 0x00#8 } = false := by decide
theorem test_wf_refuses_zero_exit_status : Config.wf { defaultConfig with exitStatusFault := 0 } = false := by decide
theorem test_wf_takes_negative_exit_status : Config.wf { defaultConfig with exitStatusFault := -1 } = true := by decide
theorem test_wf_refuses_high_register_byte : Instr.wf (.push 0x08#8) = false := by decide
theorem test_wf_refuses_high_second_register_byte : Instr.wf (.cmp 0x07#8 0x80#8) = false := by decide
theorem test_wf_takes_any_immediate : Instr.wf (.ldi 0x07#8 0xFF#8) = true := by decide
theorem test_memory_wf_refuses_disorder : Memory.wf [(2, 1#8), (1, 1#8)] = false := by decide
theorem test_memory_wf_refuses_repeat : Memory.wf [(2, 1#8), (2, 3#8)] = false := by decide
theorem test_memory_wf_refuses_zero : Memory.wf [(2, 0#8)] = false := by decide
theorem test_memory_wf_refuses_no_address : Memory.wf [(256, 1#8)] = false := by decide

/-! ### Decoding: one word per constructor, written out from the table's encodings (R74, R78) -/

theorem test_decode_ldi : decode defaultOpMap 0b10000010 0b00000011 0b11111111 = .ok (.ldi 3 255) := by decide
theorem test_decode_prn : decode defaultOpMap 0b01000111 0b00000000 0b00000001 = .ok (.prn 0) := by decide
theorem test_decode_add : decode defaultOpMap 0b10100000 0b00000010 0b00000011 = .ok (.add 2 3) := by decide
theorem test_decode_mul : decode defaultOpMap 0b10100010 0b00000100 0b00000101 = .ok (.mul 4 5) := by decide
theorem test_decode_cmp : decode defaultOpMap 0b10100111 0b00000000 0b00001000 = .ok (.cmp 0 8) := by decide
theorem test_decode_jmp : decode defaultOpMap 0b01010100 0b00000011 0b00000000 = .ok (.jmp 3) := by decide
theorem test_decode_jeq : decode defaultOpMap 0b01010101 0b00000011 0b00000000 = .ok (.jeq 3) := by decide
theorem test_decode_jne : decode defaultOpMap 0b01010110 0b00000011 0b00000000 = .ok (.jne 3) := by decide
theorem test_decode_push : decode defaultOpMap 0b01000101 0b00001111 0b00000000 = .ok (.push 15) := by decide
theorem test_decode_pop : decode defaultOpMap 0b01000110 0b00000001 0b00000000 = .ok (.pop 1) := by decide
theorem test_decode_call : decode defaultOpMap 0b01010000 0b00000001 0b00000000 = .ok (.call 1) := by decide
theorem test_decode_ret : decode defaultOpMap 0b00010001 0b01000111 0b00000001 = .ok .ret := by decide
theorem test_decode_hlt : decode defaultOpMap 0b00000001 0b11111111 0b11111111 = .ok .hlt := by decide
/-- V8 row 3. -/
theorem test_decode_rejects :
    [0x00#8, 0x83#8, 0x84#8, 0xA1#8, 0x48#8, 0x13#8].map (fun b => decode defaultOpMap b 0 0) =
      [0x00#8, 0x83#8, 0x84#8, 0xA1#8, 0x48#8, 0x13#8].map fun b => .error (.unknownOpcode b) := by decide
/-- The table's numbering: the opcode is bits 7 to 0, opA bits 15 to 8, opB bits 23 to 16. -/
theorem test_decode_table_word : decodeTableWord 24 0x090182 = some (.ldi 1 9) := by decide
theorem test_decode_table_word_short : decodeTableWord 8 0xFFFFA0 = some (.add 0 0) := by decide

/-! ### Instructions -/

/-- V1 row 7: the pc wraps. -/
theorem test_ldi_pc_wraps :
    (nextOf (step (stateAt defaultConfig 253 0x82 0x01 0x2A))).map (fun t => (t.reg 1, t.pc)) = some (0x2A#8, 0#8) := by decide
/-- V1 row 8: the operand address wraps. -/
theorem test_ldi_operand_wraps :
    (nextOf (step (stateAt defaultConfig 254 0x82 0x03 0x82))).map (fun t => (t.reg 3, t.pc)) = some (0x82#8, 1#8) := by decide
/-- V1 row 6: the Fault policy. -/
theorem test_ldi_register_fault :
    (nextOf (step (stateAt faultConfig 0 0x82 0x0A 0x05))).map (fun t => (t.fault, t.run, t.pc)) =
      some (some ⟨.registerIndexFault, 0x82#8, 0#8⟩, .faulted, 0#8) := by decide
/-- V2 row 4: PRN of the stack pointer. -/
theorem test_prn_sp :
    (nextOf (step (stateAt defaultConfig 0 0x47 0x07 0x00))).map (fun t => (t.out, t.pc)) = some ([244#8], 2#8) := by decide
/-- V2 row 5. -/
theorem test_prn_fault :
    (nextOf (step (stateAt faultConfig 0 0x47 0x09 0x00))).map (fun t => (t.fault, t.out)) =
      some (some ⟨.registerIndexFault, 0x47#8, 0#8⟩, []) := by decide
/-- V3 row 4: the destination is the first operand. -/
theorem test_add_second_into_first :
    (nextOf (exec (.add 1 0) (((stateAt defaultConfig 0 0 0 0).setReg 0 200).setReg 1 100))).map
      (fun t => (t.reg 1, t.reg 0, t.fl)) = some (44#8, 200#8, 0#8) := by decide
/-- V3 row 5: both operands are the destination. -/
theorem test_add_doubles :
    (nextOf (exec (.add 0 8) ((stateAt defaultConfig 0 0 0 0).setReg 0 0x90))).map (fun t => t.reg 0) = some 0x20#8 := by decide
/-- V3 row 12. -/
theorem test_mul_wraps :
    (nextOf (exec (.mul 0 1) (((stateAt defaultConfig 0 0 0 0).setReg 0 100).setReg 1 200))).map
      (fun t => (t.reg 0, t.reg 1)) = some (32#8, 200#8) := by decide
/-- V3 row 11. -/
theorem test_mul_max :
    (nextOf (exec (.mul 0 1) (((stateAt defaultConfig 0 0 0 0).setReg 0 0xFF).setReg 1 0xFF))).map (fun t => t.reg 0) =
      some 1#8 := by decide
/-- V3 row 21: the comparison is unsigned. -/
theorem test_cmp_unsigned :
    (nextOf (exec (.cmp 0 1) (((stateAt defaultConfig 0 0 0 0).setReg 0 0x80).setReg 1 0x7F))).map (fun t => t.fl) =
      some 0x02#8 := by decide
/-- V3 row 19. -/
theorem test_cmp_less :
    (nextOf (exec (.cmp 0 1) (((stateAt defaultConfig 0 0 0 0).setReg 0 3).setReg 1 200))).map (fun t => (t.fl, t.pc)) =
      some (0x04#8, 3#8) := by decide
/-- V4 row 1. -/
theorem test_jmp :
    (nextOf (step ((stateAt defaultConfig 20 0x54 0x03 0).setReg 3 12))).map (fun t => t.pc) = some 12#8 := by decide
/-- V4 rows 2 and 5. -/
theorem test_jeq :
    (nextOf (step (((stateAt defaultConfig 20 0x55 0x03 0).setReg 3 12).setFl 1))).map (fun t => t.pc) = some 12#8 ∧
      (nextOf (step ((stateAt defaultConfig 20 0x55 0x03 0).setReg 3 12))).map (fun t => t.pc) = some 22#8 := by decide
/-- V4 row 12: a jump that is not taken does not access its register. -/
theorem test_jeq_not_taken_no_fault :
    (nextOf (step (stateAt faultConfig 20 0x55 0x09 0))).map (fun t => (t.pc, t.fault)) = some (22#8, none) := by decide
/-- V4 rows 6 and 9. -/
theorem test_jne :
    (nextOf (step (((stateAt defaultConfig 20 0x56 0x03 0).setReg 3 12).setFl 1))).map (fun t => t.pc) = some 22#8 ∧
      (nextOf (step ((stateAt defaultConfig 20 0x56 0x03 0).setReg 3 12))).map (fun t => t.pc) = some 12#8 := by decide
/-- V4 row 13. -/
theorem test_jne_taken_fault :
    (nextOf (step (stateAt faultConfig 20 0x56 0x09 0))).map (fun t => (t.pc, t.fault)) =
      some (20#8, some ⟨.registerIndexFault, 0x56#8, 20#8⟩) := by decide
/-- V5 row 4: the stack pointer wraps. -/
theorem test_push_wraps :
    (nextOf (step (((stateAt defaultConfig 6 0x45 0x00 0).setReg 0 0xAB).setReg 7 0))).map
      (fun t => (t.sp, t.memRead 0xFF, t.pc)) = some (0xFF#8, 0xAB#8, 8#8) := by decide
/-- V5 row 6: the new stack pointer is stored. -/
theorem test_push_sp :
    (nextOf (step (stateAt defaultConfig 0 0x45 0x07 0))).map (fun t => (t.sp, t.memRead 0xF3)) = some (0xF3#8, 0xF3#8) := by decide
/-- V5 row 3. -/
theorem test_pop :
    (nextOf (step (((stateAt defaultConfig 10 0x46 0x00 0).setReg 7 0xF2).memWrite 0xF2 100))).map
      (fun t => (t.reg 0, t.sp, t.memRead 0xF2, t.pc)) = some (100#8, 0xF3#8, 100#8, 12#8) := by decide
/-- V5 row 7: loaded, then incremented. -/
theorem test_pop_sp :
    (nextOf (step (((stateAt defaultConfig 0 0x46 0x07 0).setReg 7 0xF3).memWrite 0xF3 0x20))).map (fun t => t.sp) =
      some 0x21#8 := by decide
/-- V6 row 4: the return address wraps. -/
theorem test_call_wraps :
    (nextOf (step ((stateAt defaultConfig 255 0x50 0x01 0).setReg 1 0x10))).map (fun t => (t.memRead 0xF3, t.sp, t.pc)) =
      some (0x01#8, 0xF3#8, 0x10#8) := by decide
/-- V6 row 5: the target is read after the push. -/
theorem test_call_sp :
    (nextOf (step (stateAt defaultConfig 6 0x50 0x07 0))).map (fun t => (t.memRead 0xF3, t.pc)) = some (8#8, 0xF3#8) := by decide
/-- V6 row 7. -/
theorem test_ret_wraps :
    (nextOf (step (((stateAt defaultConfig 30 0x11 0 0).setReg 7 0xFF).memWrite 0xFF 0x44))).map (fun t => (t.pc, t.sp)) =
      some (0x44#8, 0#8) := by decide
/-- V6 row 2. -/
theorem test_ret :
    (nextOf (step (((stateAt defaultConfig 14 0x11 0 0).setReg 7 0xF3).memWrite 0xF3 8))).map
      (fun t => (t.pc, t.sp, t.memRead 0xF3)) = some (8#8, 0xF4#8, 8#8) := by decide
/-- V7 rows 1 and 2. -/
theorem test_hlt :
    (nextOf (step (stateAt defaultConfig 11 0x01 0 0))).map (fun t => (t.run, t.pc)) = some (.halted, 11#8) ∧
      (nextOf (step (stateAt { defaultConfig with hltPcAdvance := 1 } 11 0x01 0 0))).map (fun t => (t.run, t.pc)) =
        some (.halted, 12#8) := by decide
/-- V7 row 4. -/
theorem test_hlt_address_fault :
    (nextOf (step (stateAt faultConfig 255 0x01 0 0))).map (fun t => (t.run, t.fault)) =
      some (.faulted, some ⟨.addressFault, 0x01#8, 255#8⟩) := by decide

/-! ### Faults, reset, load, interfaces -/

/-- V8 rows 1 and 4. -/
theorem test_faults :
    (nextOf (step State.reset)).map (fun t => (t.run, t.fault)) = some (.faulted, some ⟨.unknownOpcode, 0#8, 0#8⟩) ∧
      (nextOf (step (stateAt faultConfig 254 0xFF 0 0))).map (fun t => t.fault) =
        some (some ⟨.addressFault, 0xFF#8, 254#8⟩) := by decide
/-- V8 row 6. -/
theorem test_reset : (stateAt defaultConfig 9 1 2 3).resetEvent = State.reset ∧ State.reset.sp = 0xF4#8 := by decide
/-- R44, R186: the image of R86 starts at address 0 and the cell after it reads 0. -/
theorem test_launch :
    (nextOf (launch defaultConfig [0x82, 0x00, 0x08])).map (fun t => (t.memRead 0, t.memRead 2, t.memRead 3, t.mem.wf)) =
      some (0x82#8, 0x08#8, 0#8, true) := by decide
theorem test_load_refuses_long_image : State.load (List.replicate 257 0#8) State.reset = .refused .imageTooLong := by
  unfold State.load
  rw [if_neg]
  rw [List.length_replicate]
  decide
/-- R41, R45. -/
theorem test_status_and_trace :
    (stateAt defaultConfig 254 7 8 9).status = (.running, none) ∧
      ((stateAt defaultConfig 254 7 8 9).trace).2.1 = some (7#8, 8#8, 9#8) := by decide
theorem test_fetch_word_runs :
    (nextOf (step (State.reset.withFetchWord 24 0x090182))).map (fun t => (t.reg 1, t.pc)) = some (9#8, 3#8) := by decide
theorem test_fetch_word_short :
    (nextOf (step (State.reset.withFetchWord 8 0xFFFF45))).map (fun t => (t.sp, t.memRead 0xF3)) = some (0xF3#8, 0#8) := by decide
/-- P5: a store is what the next fetch reads. -/
theorem test_store_seen_by_fetch :
    (nextOf (step (((stateAt defaultConfig 6 0x45 0x00 0).setReg 7 9).setReg 0 1))).map (fun t => fetch t) =
      some (some (0x01#8, 0#8, 0#8)) := by decide
theorem test_alu_rejects : (alu .jmp 0 1 State.reset).toOption = none := by decide

/-! ### Witnesses: states and operands that meet the hypotheses of the statements -/

theorem witness_selects_wrap : (stateAt defaultConfig 0 0 0 0).selects 0xFF := Or.inl rfl
theorem witness_selects_fault : (stateAt faultConfig 0 0 0 0).selects 7 := Or.inr (by decide)
theorem witness_not_selects : ¬ (stateAt faultConfig 0 0 0 0).selects 8 := by unfold State.selects; decide

theorem witness_DecodeUndoesEncode :
    defaultOpMap.wf = true ∧ encode defaultOpMap (.ldi 255 255) <+: [0x82#8, 0xFF#8, 0xFF#8] ∧
      encode defaultOpMap .ret <+: [0x11#8, 0x00#8, 0xFF#8] := by decide
theorem witness_EncodeUndoesDecode : decode defaultOpMap 0x46 0xFF 0x01 = .ok (.pop 0xFF) := by decide
theorem witness_DecodeIsByWholeOpcodeByte :
    defaultOpMap.wf = true ∧ defaultOpMap.byteOf .hlt = 0x01#8 ∧ decode defaultOpMap 0x01 5 6 = .ok .hlt ∧
      ∀ mn, defaultOpMap.byteOf mn ≠ 0x00#8 := by
  refine ⟨by decide, by decide, by decide, fun mn => ?_⟩
  cases mn <;> decide
theorem witness_IllegalOpcodesAre243 : OpMap.wf { defaultOpMap with ldi := 0x00#8 } = true := by decide
theorem witness_FetchReadsThreeBytes :
    fetch (stateAt defaultConfig 255 1 2 3) = some (1#8, 2#8, 3#8) ∧ fetch (stateAt faultConfig 253 1 2 3) = some (1#8, 2#8, 3#8) := by
  decide
theorem witness_FetchFaultsAtTopOfMemory :
    (stateAt faultConfig 254 1 0 0).run = .running ∧ (stateAt faultConfig 254 1 0 0).cfg.oorPolicy = .fault ∧
      254 ≤ (stateAt faultConfig 254 1 0 0).pc.toNat ∧ 254 ≤ (stateAt faultConfig 255 1 0 0).pc.toNat := by decide
theorem witness_StepRunsDecodedInstruction :
    (stateAt faultConfig 253 0x46 9 0).run = .running ∧ (stateAt faultConfig 253 0x46 9 0).pc.toNat ≤ 253 ∧
      decode faultConfig.opMap ((stateAt faultConfig 253 0x46 9 0).memRead 253)
        ((stateAt faultConfig 253 0x46 9 0).memRead 254) ((stateAt faultConfig 253 0x46 9 0).memRead 255) = .ok (.pop 9) := by decide
theorem witness_UnknownOpcodeIsFatal :
    (stateAt defaultConfig 255 0x00 1 1).run = .running ∧ (stateAt defaultConfig 255 0x00 1 1).cfg.oorPolicy = .wrap ∧
      ∀ mn, (stateAt defaultConfig 255 0x00 1 1).cfg.opMap.byteOf mn ≠ (stateAt defaultConfig 255 0x00 1 1).memRead 255 := by
  refine ⟨by decide, by decide, fun mn => ?_⟩
  cases mn <;> decide
theorem witness_StoppedEngineNeverChanges :
    State.reset.halt.ended ∧ (State.reset.takeFault .unknownOpcode).ended := ⟨Or.inl rfl, Or.inr rfl⟩
theorem witness_RunStateTransitions :
    (∃ t, step (stateAt defaultConfig 255 0x01 1 1) = .next t ∧ t.run = .halted) ∧
      (∃ t, step (stateAt defaultConfig 0 0xFF 1 1) = .next t ∧ t.run = .faulted) ∧
      (∃ t, step State.reset.halt = .next t ∧ State.reset.halt.run ≠ .running) :=
  ⟨⟨_, rfl, rfl⟩, ⟨_, rfl, rfl⟩, ⟨_, rfl, by decide⟩⟩
theorem witness_FaultsArePrecise :
    (stateAt faultConfig 7 0x45 8 0).run = .running ∧
      ∃ t, step (stateAt faultConfig 7 0x45 8 0) = .next t ∧ t.run = .faulted := ⟨rfl, _, rfl, rfl⟩
theorem witness_WrapPolicyFaultsOnlyOnUnknownOpcode :
    (stateAt defaultConfig 255 0xFF 8 0).run = .running ∧ (stateAt defaultConfig 255 0xFF 8 0).cfg.oorPolicy = .wrap ∧
      ∃ t, step (stateAt defaultConfig 255 0xFF 8 0) = .next t ∧ t.run = .faulted := ⟨rfl, rfl, _, rfl, rfl⟩
theorem witness_FaultPriority :
    (∃ t, step (stateAt faultConfig 254 0xFF 0 0) = .next t ∧ t.fault = some ⟨.addressFault, 0xFF#8, 254#8⟩) ∧
      (∃ t, step (stateAt faultConfig 253 0xFF 9 9) = .next t ∧ t.fault = some ⟨.unknownOpcode, 0xFF#8, 253#8⟩) ∧
      (∃ t, step (stateAt faultConfig 253 0xA0 9 10) = .next t ∧ t.fault = some ⟨.registerIndexFault, 0xA0#8, 253#8⟩) :=
  ⟨⟨_, rfl, rfl⟩, ⟨_, rfl, rfl⟩, ⟨_, rfl, rfl⟩⟩
theorem witness_PoliciesAgreeOnWellFormedCode :
    (stateAt defaultConfig 253 0xA0 7 0).pc.toNat ≤ 253 ∧
      ∀ i, decode defaultConfig.opMap ((stateAt defaultConfig 253 0xA0 7 0).memRead 253)
        ((stateAt defaultConfig 253 0xA0 7 0).memRead 254) ((stateAt defaultConfig 253 0xA0 7 0).memRead 255) = .ok i →
        i.wf = true := by
  have h : decode defaultConfig.opMap ((stateAt defaultConfig 253 0xA0 7 0).memRead 253)
      ((stateAt defaultConfig 253 0xA0 7 0).memRead 254) ((stateAt defaultConfig 253 0xA0 7 0).memRead 255) =
      .ok (.add 7 0) := by decide
  refine ⟨by decide, fun i hi => ?_⟩
  rw [h] at hi
  injection hi with hi
  rw [← hi]
  decide
theorem witness_StoredInstructionIsRunNext :
    (stateAt defaultConfig 255 0 0 0).run = .running ∧ (stateAt defaultConfig 255 0 0 0).cfg.oorPolicy = .wrap ∧
      decode defaultConfig.opMap (tableByte 16 0x0347 0) (tableByte 16 0x0347 1) (tableByte 16 0x0347 2) = .ok (.prn 3) := by
  decide
theorem witness_ResetMeetsInvariant : faultConfig.wf = true := by decide
theorem witness_StepKeepsInvariant :
    (stateAt defaultConfig 0 0x45 7 0).invariant ∧ ∃ t, step (stateAt defaultConfig 0 0x45 7 0) = .next t :=
  ⟨⟨by decide, by decide, Or.inl rfl, by unfold State.faultAgrees; decide⟩, _, rfl⟩
theorem witness_ConfigurationIsFixed : ∃ t, Host.Core.run Sys2Proof.core 1 (stateAt faultConfig 0 0x45 7 0) = .next t := ⟨_, rfl⟩
theorem witness_OutputGrowsByPrnOnly :
    (∃ t, step (stateAt defaultConfig 0 0x47 7 0) = .next t ∧ t.out = [0xF4#8]) ∧
      ∃ t, exec (.ldi 7 3) State.reset = .next t := ⟨⟨_, rfl, rfl⟩, _, rfl⟩
/-- For the statements over every instruction that answers a next state: PUSH of the stack pointer, CMP, a taken JNE. -/
theorem witness_exec_next :
    (∃ t, exec (.push 7) State.reset = .next t) ∧ (∃ t, exec (.cmp 0 7) State.reset = .next t) ∧
      (∃ t, exec (.jne 7) State.reset = .next t) ∧ ∃ t, exec (.pop 7) State.reset = .next t :=
  ⟨⟨_, rfl⟩, ⟨_, rfl⟩, ⟨_, rfl⟩, _, rfl⟩
theorem witness_OnlyConditionalJumpsReadFlag :
    (∃ t, exec (.jeq 7) State.reset = .next t) ∧
      (State.reset.fl = State.reset.cfg.flE ↔ (0x04#8 : Byte) = State.reset.cfg.flE) ∧
      (∃ t, exec (.cmp 0 7) State.reset = .next t) ∧ State.reset.selects 0 ∧ State.reset.selects 7 ∧
      (∃ t, exec (.cmp 0 8) (stateAt faultConfig 0 0xA7 0 8) = .next t) ∧ ¬ (stateAt faultConfig 0 0xA7 0 8).selects 8 :=
  ⟨⟨_, rfl⟩, by decide, ⟨_, rfl⟩, Or.inl rfl, Or.inl rfl, ⟨_, rfl⟩, witness_not_selects⟩
theorem witness_SequentialAdvanceIsInstructionLength :
    (∃ t, exec (.pop 7) (stateAt defaultConfig 255 0 0 0) = .next t) ∧
      (∃ t, exec (.pop 8) (stateAt faultConfig 253 0 0 0) = .next t ∧ t.run = .faulted) ∧
      (Instr.pop 7).mnemonic ∉ [Mnemonic.jmp, .jeq, .jne, .call, .ret, .hlt] := ⟨⟨_, rfl⟩, ⟨_, rfl, rfl⟩, by decide⟩
/-- For LdiLoadsImmediate, PrnAppendsRegister, AddIsModular, MulIsModular, JmpReplacesPc and AddAndMulCommute: operands that
select at the ends of both ranges, and the first byte that does not. -/
theorem witness_register_operand_clauses :
    ((stateAt defaultConfig 0 0 0 0).selects 0 ∧ (stateAt defaultConfig 0 0 0 0).selects 0xFF) ∧
      ((stateAt faultConfig 0 0 0 0).selects 0 ∧ (stateAt faultConfig 0 0 0 0).selects 7) ∧
      ¬ (stateAt faultConfig 0 0 0 0).selects 8 :=
  ⟨⟨Or.inl rfl, Or.inl rfl⟩, ⟨Or.inr (by decide), Or.inr (by decide)⟩, witness_not_selects⟩
/-- The four cases of flag and operand. -/
theorem witness_JeqJumpsWhenEqual_JneJumpsWhenNotEqual :
    ((stateAt faultConfig 0 0 0 0).setFl 1).fl = faultConfig.flE ∧ (stateAt faultConfig 0 0 0 0).fl ≠ faultConfig.flE ∧
      ((stateAt faultConfig 0 0 0 0).setFl 1).selects 7 ∧ ¬ ((stateAt faultConfig 0 0 0 0).setFl 1).selects 8 ∧
      (stateAt faultConfig 0 0 0 0).selects 7 ∧ ¬ (stateAt faultConfig 0 0 0 0).selects 8 :=
  ⟨by decide, by decide, Or.inr (by decide), witness_not_selects, Or.inr (by decide), witness_not_selects⟩
/-- PUSH, POP and CALL: an operand that is the stack pointer and one that is not, and one that selects nothing. -/
theorem witness_Push_Pop_Call_clauses :
    State.reset.selects 0x0F ∧ selected 0x0F = State.reset.cfg.spIndex ∧ State.reset.selects 0x08 ∧
      selected 0x08 ≠ State.reset.cfg.spIndex ∧ ¬ (stateAt faultConfig 0 0 0 0).selects 8 :=
  ⟨Or.inl rfl, by decide, Or.inl rfl, by decide, witness_not_selects⟩
theorem witness_CmpSetsFlag :
    State.reset.selects 0 ∧ State.reset.selects 1 ∧ State.reset.selects 7 ∧
      (State.reset.reg 0).toNat = (State.reset.reg 1).toNat ∧ (State.reset.reg 0).toNat < (State.reset.reg 7).toNat :=
  ⟨Or.inl rfl, Or.inl rfl, Or.inl rfl, by decide, by decide⟩
theorem witness_CanonicalMemoryIsItsContents :
    Memory.wf [(0, 1#8), (255, 2#8)] = true ∧ Memory.wf (Memory.write (Memory.write [] 255 2) 0 1) = true ∧
      Memory.write (Memory.write [] 255 2) 0 1 = [(0, 1#8), (255, 2#8)] := by decide
theorem witness_CompareLaws : State.reset.cfg.wf = true ∧ State.reset.selects 0 ∧ State.reset.selects 15 :=
  ⟨by decide, Or.inl rfl, Or.inl rfl⟩
theorem witness_JumpsBeforeFirstCompare : State.reset.cfg.wf = true ∧ State.reset.fl = 0#8 ∧ State.reset.selects 7 :=
  ⟨by decide, rfl, Or.inl rfl⟩
theorem witness_StackPointerAsOperand : State.reset.selects 0x0F ∧ selected 0x0F = State.reset.cfg.spIndex :=
  ⟨Or.inl rfl, by decide⟩
/-- PUSH R0, POP R1 at 251 under the Fault policy, the last place where both fetches succeed. -/
def pushPopState : State := (stateAt faultConfig 251 0x45 0 0x46).memWrite 254 1
theorem witness_PushPopRoundTrip :
    pushPopState.run = .running ∧ pushPopState.cfg.wf = true ∧ pushPopState.pc.toNat ≤ 251 ∧
      pushPopState.memRead 251 = pushPopState.cfg.opMap.push ∧ pushPopState.memRead 252 = 0#8 ∧
      pushPopState.memRead 253 = pushPopState.cfg.opMap.pop ∧ pushPopState.memRead 254 = 1#8 ∧
      selected 0 ≠ pushPopState.cfg.spIndex ∧ selected 1 ≠ pushPopState.cfg.spIndex ∧
      pushPopState.sp - 1#8 ≠ pushPopState.pc + 2#8 ∧ pushPopState.sp - 1#8 ≠ pushPopState.pc + 3#8 := by decide
theorem witness_PushPopRoundTrip_selects : pushPopState.selects 0 ∧ pushPopState.selects 1 :=
  ⟨Or.inr (by decide), Or.inr (by decide)⟩
theorem witness_RetResumesAfterCall :
    State.reset.selects 0 ∧ ∃ t u : State, exec (.call 0) State.reset = .next t ∧ u.cfg = t.cfg ∧ u.sp = t.sp ∧
      u.memRead t.sp = t.memRead t.sp ∧ u.pc = 14#8 := by
  refine ⟨Or.inl rfl, _, State.setPc _ 14#8, rfl, rfl, rfl, rfl, rfl⟩
theorem witness_NextFetchSeesStore :
    (stateAt defaultConfig 6 0x45 0x00 0).selects 0 ∧
      (∃ t, exec (.push 0) ((stateAt defaultConfig 6 0x45 0x00 0).setReg 7 9) = .next t ∧ t.cfg.oorPolicy = .wrap ∧
        t.pc = ((stateAt defaultConfig 6 0x45 0x00 0).setReg 7 9).sp - 1#8) ∧
      ∃ t, exec (.call 7) ((stateAt faultConfig 6 0x50 0x07 0).setReg 7 254) = .next t ∧ t.pc.toNat ≤ 253 :=
  ⟨Or.inl rfl, ⟨_, rfl, rfl, by decide⟩, _, rfl, by decide⟩
theorem witness_AluRejectsOtherMnemonics :
    Mnemonic.hlt ∉ [Mnemonic.add, .mul, .cmp] ∧ Mnemonic.cmp ∈ [Mnemonic.add, .mul, .cmp] := by decide
theorem witness_LaunchLoadsImage :
    (List.replicate 256 (1#8 : Byte)).length ≤ 256 ∧ 256 < (List.replicate 257 (1#8 : Byte)).length ∧ faultConfig.wf = true := by
  exact ⟨by rw [List.length_replicate], by rw [List.length_replicate]; decide, by decide⟩

end Sys2Proof.Tests
end

section
/-! The frame of a memory write, and the statement of `20_memory.md` about it. -/

open Sys2Proof.Machine

namespace Sys2Proof.Machine

theorem memWrite_sameMemoryBut (s : State) (a v : Byte) : sameMemoryBut a s (s.memWrite a v) :=
  fun _ h => memRead_memWrite_ne s v h

theorem memWrite_sameRegs (s : State) (a v : Byte) : sameRegs s (s.memWrite a v) :=
  fun r => memWrite_reg s r v a

theorem memWrite_sameRest (s : State) (a v : Byte) : sameRest s (s.memWrite a v) :=
  ⟨memWrite_cfg s v a, memWrite_fl s v a, memWrite_run s v a, memWrite_fault s v a, memWrite_out s v a⟩

end Sys2Proof.Machine

/-- Settles O41 (R50): the read-after-write law of memory, and the frame of the write. -/
theorem memoryReadAfterWrite : Obligations.MemoryReadAfterWrite := fun s a v =>
  ⟨memRead_memWrite_self s a v, memWrite_sameMemoryBut s a v, memWrite_sameRegs s a v, memWrite_pc s v a,
    memWrite_sameRest s a v⟩
end

section
/-! The decoder's two answers as equivalences on the opcode byte, and the statement of `30_encoding.md` about the match. -/

namespace Sys2Proof

theorem OpMap.mnemonicOf_eq_some {m : OpMap} (h : m.wf = true) {op : Byte} {mn : Mnemonic} :
    m.mnemonicOf op = some mn ↔ m.byteOf mn = op :=
  ⟨OpMap.byteOf_of_mnemonicOf, fun hop => hop ▸ OpMap.mnemonicOf_byteOf h mn⟩

theorem decode_eq_ok {m : OpMap} {op a b : Byte} {i : Instr} :
    decode m op a b = .ok i ↔ ∃ mn, m.mnemonicOf op = some mn ∧ Instr.assemble mn a b = i := by
  rcases decode_cases m op a b with ⟨mn, hmn, hd⟩ | ⟨hnone, hd⟩
  · simp [hmn, hd]
  · simp [hnone, hd]

theorem decode_eq_error {m : OpMap} {op a b : Byte} :
    decode m op a b = .error (.unknownOpcode op) ↔ ∀ mn, m.byteOf mn ≠ op := by
  rw [← OpMap.mnemonicOf_eq_none]
  rcases decode_cases m op a b with ⟨mn, hmn, hd⟩ | ⟨hnone, hd⟩
  · simp [hmn, hd]
  · simp [hnone, hd]

theorem exists_decode_eq_ok_mnemonic {m : OpMap} {op a b : Byte} {mn : Mnemonic} :
    (∃ i, decode m op a b = .ok i ∧ i.mnemonic = mn) ↔ m.mnemonicOf op = some mn := by
  constructor
  · rintro ⟨i, hd, rfl⟩
    obtain ⟨x, hx, rfl⟩ := decode_eq_ok.mp hd
    rwa [Instr.mnemonic_assemble]
  · intro hmn
    exact ⟨_, decode_eq_ok.mpr ⟨mn, hmn, rfl⟩, Instr.mnemonic_assemble mn a b⟩

theorem decode_operands_prefix {m : OpMap} {op a b : Byte} {i : Instr} (hd : decode m op a b = .ok i) :
    i.operands <+: [a, b] := by
  obtain ⟨mn, -, rfl⟩ := decode_eq_ok.mp hd
  exact Instr.operands_assemble_prefix mn a b

end Sys2Proof

open Sys2Proof

/-- Settles O4 (R79): the injectivity of `OPMAP` makes the lookup an equivalence with equality on the whole opcode byte. -/
theorem decodeIsByWholeOpcodeByte : Obligations.DecodeIsByWholeOpcodeByte := fun _ _ _ _ hwf =>
  ⟨fun _ => (OpMap.mnemonicOf_eq_some hwf).symm.trans exists_decode_eq_ok_mnemonic.symm,
    fun _ _ hx hy => OpMap.byteOf_injective hwf (hx.trans hy.symm),
    fun _ => decode_operands_prefix,
    decode_eq_error.mpr⟩
end

section
/-! The frame of a register write followed by a positional increment, and the statement of `40_ldi.md`. -/

open Sys2Proof Sys2Proof.Machine

namespace Sys2Proof.Machine

theorem setReg_advancePc_sameRegsBut (s : State) (i : RegIdx) (v : Byte) (n : Nat) :
    sameRegsBut [i] s ((s.setReg i v).advancePc n) := by
  intro r hr
  have hne : r ≠ i := List.ne_of_not_mem_cons hr
  rw [advancePc_reg, reg_setReg_ne s i v hne]

theorem setReg_advancePc_sameMemory (s : State) (i : RegIdx) (v : Byte) (n : Nat) :
    sameMemory s ((s.setReg i v).advancePc n) := fun a => by
  rw [advancePc_memRead, setReg_memRead]

theorem setReg_advancePc_sameRest (s : State) (i : RegIdx) (v : Byte) (n : Nat) :
    sameRest s ((s.setReg i v).advancePc n) := by
  simp [sameRest]

theorem exec_ldi_of_selects {s : State} {opA : Byte} (h : s.selects opA) (opB : Byte) :
    exec (.ldi opA opB) s = .next ((s.setReg (selected opA) opB).advancePc 3) :=
  withReg_of_selects h

theorem exec_ldi_of_not_selects {s : State} {opA : Byte} (h : ¬ s.selects opA) (opB : Byte) :
    exec (.ldi opA opB) s = .next (s.takeFault .registerIndexFault) :=
  withReg_of_not_selects h

end Sys2Proof.Machine

/-- Settles O28 (R90): LDI is a register write and an advance by 3 when its first operand selects, the fault entry when it
does not. -/
theorem ldiLoadsImmediate : Obligations.LdiLoadsImmediate := by
  intro s opA opB
  refine ⟨rfl, fun hsel => ⟨_, exec_ldi_of_selects hsel opB, ?_, ?_, setReg_advancePc_sameRegsBut s _ opB 3,
    setReg_advancePc_sameMemory s _ opB 3, setReg_advancePc_sameRest s _ opB 3⟩,
    fun hnot => exec_ldi_of_not_selects hnot opB⟩
  · rw [advancePc_reg, reg_setReg_self]
  · rw [advancePc_pc, setReg_pc]
end

section
/-! The frame of an output event followed by a positional increment, and the statement of `41_prn.md` about PRN. -/

open Sys2Proof Sys2Proof.Machine

namespace Sys2Proof.Machine

theorem output_advancePc_sameRegs (s : State) (v : Byte) (n : Nat) : sameRegs s ((s.output v).advancePc n) := fun r => by
  rw [advancePc_reg, output_reg]

theorem output_advancePc_sameMemory (s : State) (v : Byte) (n : Nat) :
    sameMemory s ((s.output v).advancePc n) := fun a => by
  rw [advancePc_memRead, output_memRead]

/-- The fields of `sameRest` other than the output. -/
theorem output_advancePc_sameRestButOut (s : State) (v : Byte) (n : Nat) :
    ((s.output v).advancePc n).cfg = s.cfg ∧ ((s.output v).advancePc n).fl = s.fl ∧
      ((s.output v).advancePc n).run = s.run ∧ ((s.output v).advancePc n).fault = s.fault := by
  simp

theorem exec_prn_of_selects {s : State} {opA : Byte} (h : s.selects opA) :
    exec (.prn opA) s = .next ((s.output (s.reg (selected opA))).advancePc 2) :=
  withReg_of_selects h

theorem exec_prn_of_not_selects {s : State} {opA : Byte} (h : ¬ s.selects opA) :
    exec (.prn opA) s = .next (s.takeFault .registerIndexFault) :=
  withReg_of_not_selects h

end Sys2Proof.Machine

/-- Settles O29 (R95): PRN is one output event and an advance by 2 when its operand selects, the fault entry, with no
output event before it, when it does not. -/
theorem prnAppendsRegister : Obligations.PrnAppendsRegister := by
  intro s opA
  refine ⟨rfl, fun hsel => ⟨_, exec_prn_of_selects hsel, ?_, ?_, output_advancePc_sameRegs s _ 2,
    output_advancePc_sameMemory s _ 2, output_advancePc_sameRestButOut s _ 2⟩, exec_prn_of_not_selects⟩
  · rw [advancePc_out, output_out]
  · rw [advancePc_pc, output_pc]
end

section
/-! The value and the frame of an ALU instruction, the three outcomes of a comparison, and the statements of `42_alu.md`
about ADD, MUL and CMP. -/

open Sys2Proof Sys2Proof.Machine

namespace Sys2Proof

theorem toNat_wrap8_add (m n : Nat) : (wrap8 ((m : Int) + (n : Int))).toNat = (m + n) % 256 := by
  rw [← Int.natCast_add, toNat_wrap8_nat]

theorem toNat_wrap8_mul (m n : Nat) : (wrap8 ((m : Int) * (n : Int))).toNat = (m * n) % 256 := by
  rw [← Int.natCast_mul, toNat_wrap8_nat]

end Sys2Proof

namespace Sys2Proof.Machine

theorem compareFlag_of_eq (c : Config) {a b : Byte} (h : a.toNat = b.toNat) : compareFlag c a b = c.flE :=
  if_pos (BitVec.eq_of_toNat_eq h)

theorem compareFlag_of_lt (c : Config) {a b : Byte} (h : a.toNat < b.toNat) : compareFlag c a b = c.flL := by
  have hne : a ≠ b := fun hab => h.ne (congrArg BitVec.toNat hab)
  rw [compareFlag, if_neg hne, if_pos h]

theorem compareFlag_of_gt (c : Config) {a b : Byte} (h : b.toNat < a.toNat) : compareFlag c a b = c.flG := by
  have hne : a ≠ b := fun hab => h.ne' (congrArg BitVec.toNat hab)
  rw [compareFlag, if_neg hne, if_neg h.asymm]

/-- What ADD and MUL share (R102, R103): the ALU's one register write, and the frame of that write and the advance. -/
theorem aluInstr_setReg {s : State} {op : Mnemonic} {opA opB v : Byte} (ha : s.selects opA) (hb : s.selects opB)
    (hwrite : alu op (selected opA) (selected opB) s = .ok (s.setReg (selected opA) v)) :
    ∃ t, aluInstr op opA opB s = .next t ∧ (t.reg (selected opA)).toNat = v.toNat ∧ t.pc = s.pc + 3#8 ∧
      sameRegsBut [selected opA] s t ∧ sameMemory s t ∧ sameRest s t := by
  refine ⟨_, aluInstr_of_selects ha hb hwrite, ?_, ?_, setReg_advancePc_sameRegsBut s _ v 3,
    setReg_advancePc_sameMemory s _ v 3, setReg_advancePc_sameRest s _ v 3⟩
  · rw [advancePc_reg, reg_setReg_self]
  · rw [advancePc_pc, setReg_pc]

theorem setFl_advancePc_sameRegs (s : State) (v : Byte) (n : Nat) : sameRegs s ((s.setFl v).advancePc n) := fun r => by
  rw [advancePc_reg, setFl_reg]

theorem setFl_advancePc_sameMemory (s : State) (v : Byte) (n : Nat) :
    sameMemory s ((s.setFl v).advancePc n) := fun a => by
  rw [advancePc_memRead, setFl_memRead]

/-- The fields of `sameRest` other than the flag register. -/
theorem setFl_advancePc_sameRestButFl (s : State) (v : Byte) (n : Nat) :
    ((s.setFl v).advancePc n).cfg = s.cfg ∧ ((s.setFl v).advancePc n).run = s.run ∧
      ((s.setFl v).advancePc n).fault = s.fault ∧ ((s.setFl v).advancePc n).out = s.out := by
  simp

theorem exec_cmp_of_selects {s : State} {opA opB : Byte} (ha : s.selects opA) (hb : s.selects opB) :
    exec (.cmp opA opB) s =
      .next ((s.setFl (compareFlag s.cfg (s.reg (selected opA)) (s.reg (selected opB)))).advancePc 3) :=
  aluInstr_of_selects (op := .cmp) ha hb rfl

end Sys2Proof.Machine

/-- Settles O30 (R102): ADD is the ALU's register write of the wrapped sum, or the fault entry. -/
theorem addIsModular : Obligations.AddIsModular := fun s opA opB =>
  ⟨rfl,
    fun ha hb => by
      rw [← toNat_wrap8_add]
      exact aluInstr_setReg (op := .add) ha hb rfl,
    aluInstr_of_not_selects (op := .add)⟩

/-- Settles O31 (R103): MUL is the ALU's register write of the wrapped product, or the fault entry. -/
theorem mulIsModular : Obligations.MulIsModular := fun s opA opB =>
  ⟨rfl,
    fun ha hb => by
      rw [← toNat_wrap8_mul]
      exact aluInstr_setReg (op := .mul) ha hb rfl,
    aluInstr_of_not_selects (op := .mul)⟩

/-- Settles O32 (R104): CMP is a flag write of the comparison's pattern and an advance by 3, or the fault entry. -/
theorem cmpSetsFlag : Obligations.CmpSetsFlag := by
  intro s opA opB
  refine ⟨rfl, fun ha hb => ⟨_, exec_cmp_of_selects ha hb, compareFlag_of_eq s.cfg, compareFlag_of_lt s.cfg,
    compareFlag_of_gt s.cfg, ?_, setFl_advancePc_sameRegs s _ 3, setFl_advancePc_sameMemory s _ 3,
    setFl_advancePc_sameRestButFl s _ 3⟩, aluInstr_of_not_selects (op := .cmp)⟩
  rw [advancePc_pc, setFl_pc]
end

section
/-! The two outcomes of a jump, each a write of the pc and nothing else, and the statements of `43_jumps.md`. -/

open Sys2Proof Sys2Proof.Machine

namespace Sys2Proof.Machine

variable {s : State} {opA : Byte}

theorem flagEqual_of_eq (h : s.fl = s.cfg.flE) : s.flagEqual = true := decide_eq_true h

theorem flagEqual_of_ne (h : s.fl ≠ s.cfg.flE) : s.flagEqual = false := decide_eq_false h

theorem advancePc_eq_setPc (s : State) (n : Nat) : s.advancePc n = s.setPc (s.pc + BitVec.ofNat 8 n) :=
  congrArg s.setPc (wrap8_add_nat s.pc n)

/-- What every jump, taken or not, has in common (R110 to R112): only the pc changes. -/
theorem exec_frame_of_setPc {i : Instr} {v : Byte} (h : exec i s = .next (s.setPc v)) :
    ∃ t, exec i s = .next t ∧ t.pc = v ∧ sameRegs s t ∧ sameMemory s t ∧ sameRest s t :=
  ⟨_, h, setPc_pc s v, fun r => setPc_reg s r v, fun a => setPc_memRead s v a,
    setPc_cfg s v, setPc_fl s v, setPc_run s v, setPc_fault s v, setPc_out s v⟩

theorem exec_jmp_of_selects (h : s.selects opA) : exec (.jmp opA) s = .next (s.setPc (s.reg (selected opA))) :=
  withReg_of_selects h

theorem exec_jmp_of_not_selects (h : ¬ s.selects opA) :
    exec (.jmp opA) s = .next (s.takeFault .registerIndexFault) :=
  withReg_of_not_selects h

theorem jumpIf_true (opA : Byte) (s : State) : jumpIf true opA s = exec (.jmp opA) s := rfl

theorem jumpIf_false (opA : Byte) (s : State) : jumpIf false opA s = .next (s.setPc (s.pc + 2#8)) :=
  congrArg Host.Outcome.next (advancePc_eq_setPc s 2)

theorem exec_jeq (opA : Byte) (s : State) : exec (.jeq opA) s = jumpIf s.flagEqual opA s := rfl

theorem exec_jne (opA : Byte) (s : State) : exec (.jne opA) s = jumpIf (!s.flagEqual) opA s := rfl

/-- A taken JEQ is a JMP. -/
theorem exec_jeq_of_eq (h : s.fl = s.cfg.flE) : exec (.jeq opA) s = exec (.jmp opA) s := by
  rw [exec_jeq, flagEqual_of_eq h, jumpIf_true]

theorem exec_jeq_of_ne (h : s.fl ≠ s.cfg.flE) : exec (.jeq opA) s = .next (s.setPc (s.pc + 2#8)) := by
  rw [exec_jeq, flagEqual_of_ne h, jumpIf_false]

/-- A taken JNE is a JMP. -/
theorem exec_jne_of_ne (h : s.fl ≠ s.cfg.flE) : exec (.jne opA) s = exec (.jmp opA) s := by
  rw [exec_jne, flagEqual_of_ne h, Bool.not_false, jumpIf_true]

theorem exec_jne_of_eq (h : s.fl = s.cfg.flE) : exec (.jne opA) s = .next (s.setPc (s.pc + 2#8)) := by
  rw [exec_jne, flagEqual_of_eq h, Bool.not_true, jumpIf_false]

/-- Whatever FL holds, one of JEQ and JNE is taken and the other is not (R112). -/
theorem exec_jeq_jne_complement (h : s.selects opA) :
    ∃ t u, exec (.jeq opA) s = .next t ∧ exec (.jne opA) s = .next u ∧
      ((t.pc = s.reg (selected opA) ∧ u.pc = s.pc + 2#8) ∨ (t.pc = s.pc + 2#8 ∧ u.pc = s.reg (selected opA))) := by
  by_cases hfl : s.fl = s.cfg.flE
  · exact ⟨_, _, (exec_jeq_of_eq hfl).trans (exec_jmp_of_selects h), exec_jne_of_eq hfl,
      .inl ⟨setPc_pc s _, setPc_pc s _⟩⟩
  · exact ⟨_, _, exec_jeq_of_ne hfl, (exec_jne_of_ne hfl).trans (exec_jmp_of_selects h),
      .inr ⟨setPc_pc s _, setPc_pc s _⟩⟩

end Sys2Proof.Machine

/-- Settles O33 (R110): JMP is a write of the pc when its operand selects, the fault entry when it does not. -/
theorem jmpReplacesPc : Obligations.JmpReplacesPc := fun _ _ =>
  ⟨rfl, fun hsel => exec_frame_of_setPc (exec_jmp_of_selects hsel), exec_jmp_of_not_selects⟩

/-- Settles O34 (R111): JEQ is JMP when the flag is EQUAL, and otherwise a write of pc + 2 for every operand byte. -/
theorem jeqJumpsWhenEqual : Obligations.JeqJumpsWhenEqual := fun _ _ =>
  ⟨rfl,
    fun heq hsel => exec_frame_of_setPc ((exec_jeq_of_eq heq).trans (exec_jmp_of_selects hsel)),
    fun hne => exec_frame_of_setPc (exec_jeq_of_ne hne),
    fun heq hnot => (exec_jeq_of_eq heq).trans (exec_jmp_of_not_selects hnot)⟩

/-- Settles O35 (R112): JNE is JMP when the flag is not EQUAL, and otherwise a write of pc + 2; the complement follows by
cases on the flag. -/
theorem jneJumpsWhenNotEqual : Obligations.JneJumpsWhenNotEqual := fun _ _ =>
  ⟨rfl,
    fun hne hsel => exec_frame_of_setPc ((exec_jne_of_ne hne).trans (exec_jmp_of_selects hsel)),
    fun heq => exec_frame_of_setPc (exec_jne_of_eq heq),
    fun hne hnot => (exec_jne_of_ne hne).trans (exec_jmp_of_not_selects hnot),
    exec_jeq_jne_complement⟩
end

section
/-! What a push and a pop leave behind, in the stack pointer's slot, in the operand's register and in memory, and the
statements of `44_stack.md` about PUSH and POP. -/

open Sys2Proof Sys2Proof.Machine

namespace Sys2Proof.Machine

variable {s : State} {opA : Byte}

/-! ### Push -/

theorem pushWith_sameRegsBut (s : State) (w : State → Byte) : sameRegsBut [s.cfg.spIndex] s (s.pushWith w) := by
  intro r hr
  have hne : r ≠ s.cfg.spIndex := List.ne_of_not_mem_cons hr
  rw [pushWith_reg, if_neg hne]

theorem pushWith_sameMemoryBut (s : State) (w : State → Byte) : sameMemoryBut (s.sp - 1#8) s (s.pushWith w) := by
  intro b hb
  rw [pushWith_memRead, if_neg hb]

theorem pushWith_memRead_self (s : State) (w : State → Byte) : (s.pushWith w).memRead (s.sp - 1#8) = w s.decSp := by
  rw [pushWith_memRead, if_pos rfl]

theorem pushWith_sameRest (s : State) (w : State → Byte) : sameRest s (s.pushWith w) := by
  simp [sameRest]

/-- What PUSH and CALL share (R120, R130): one byte stored below the stack pointer, whatever the byte and the next pc. -/
theorem exec_frame_of_pushWith {i : Instr} {w : State → Byte} {v : Byte}
    (h : exec i s = .next ((s.pushWith w).setPc v)) :
    ∃ t, exec i s = .next t ∧ t.sp = s.sp - 1#8 ∧ t.memRead (s.sp - 1#8) = w s.decSp ∧ t.pc = v ∧
      sameRegsBut [s.cfg.spIndex] s t ∧ sameMemoryBut (s.sp - 1#8) s t ∧ sameRest s t :=
  ⟨_, h, pushWith_sp (w := w), pushWith_memRead_self s w, setPc_pc _ v, pushWith_sameRegsBut s w,
    pushWith_sameMemoryBut s w, pushWith_sameRest s w⟩

theorem exec_push_of_selects (h : s.selects opA) :
    exec (.push opA) s = .next ((s.pushWith fun u => u.reg (selected opA)).setPc (s.pc + 2#8)) := by
  rw [← pushWith_pc (w := fun u => u.reg (selected opA)), ← advancePc_eq_setPc]
  exact withReg_of_selects h

theorem exec_push_of_not_selects (h : ¬ s.selects opA) :
    exec (.push opA) s = .next (s.takeFault .registerIndexFault) :=
  withReg_of_not_selects h

/-! ### Pop -/

theorem setReg_sp_self (s : State) (v : Byte) : (s.setReg s.cfg.spIndex v).sp = v :=
  reg_setReg_self s s.cfg.spIndex v

theorem setReg_sp_ne (s : State) {d : RegIdx} (h : d ≠ s.cfg.spIndex) (v : Byte) : (s.setReg d v).sp = s.sp :=
  reg_setReg_ne s d v h.symm

theorem incSp_reg_ne (s : State) {r : RegIdx} (h : r ≠ s.cfg.spIndex) : s.incSp.reg r = s.reg r := by
  rw [incSp_reg, if_neg h]

/-- A destination other than the stack pointer keeps the popped byte. -/
theorem setReg_incSp_reg_self (s : State) {d : RegIdx} (h : d ≠ s.cfg.spIndex) (v : Byte) :
    (s.setReg d v).incSp.reg d = v := by
  rw [incSp_reg_ne (s.setReg d v) h, reg_setReg_self]

theorem setReg_incSp_sameRegsBut (s : State) (d : RegIdx) (v : Byte) :
    sameRegsBut [d, s.cfg.spIndex] s (s.setReg d v).incSp := by
  intro r hr
  have hd : r ≠ d := List.ne_of_not_mem_cons hr
  have hsp : r ≠ s.cfg.spIndex := List.ne_of_not_mem_cons (List.not_mem_of_not_mem_cons hr)
  rw [incSp_reg_ne (s.setReg d v) hsp, reg_setReg_ne s d v hd]

theorem exec_pop_of_selects (h : s.selects opA) :
    exec (.pop opA) s = .next ((s.setReg (selected opA) (s.memRead s.sp)).incSp.advancePc 2) :=
  withReg_of_selects h

theorem exec_pop_of_not_selects (h : ¬ s.selects opA) :
    exec (.pop opA) s = .next (s.takeFault .registerIndexFault) :=
  withReg_of_not_selects h

end Sys2Proof.Machine

/-- Settles O36 (R120): PUSH is a push of the operand register, read after the decrement, and an advance by 2, or the
fault entry. -/
theorem pushStoresBelowStackPointer : Obligations.PushStoresBelowStackPointer := fun s opA =>
  ⟨rfl,
    fun hsel => by
      rw [← decSp_reg]
      exact exec_frame_of_pushWith (exec_push_of_selects hsel),
    exec_push_of_not_selects⟩

/-- Settles O37 (R121): POP is a register write, an increment of the stack pointer as it is after that write, and an
advance by 2, or the fault entry; whether the write reaches the stack pointer is the one case split. -/
theorem popLoadsFromStackPointer : Obligations.PopLoadsFromStackPointer := by
  intro s opA
  refine ⟨rfl, fun hsel => ⟨_, exec_pop_of_selects hsel, fun hne => ⟨?_, ?_⟩, fun heq => ?_, ?_,
    setReg_incSp_sameRegsBut s _ _, fun a => ?_, ?_⟩, exec_pop_of_not_selects⟩
  · rw [advancePc_reg, setReg_incSp_reg_self s hne]
  · rw [advancePc_sp, incSp_sp, setReg_sp_ne s hne]
  · rw [advancePc_sp, incSp_sp, heq, setReg_sp_self]
  · rw [advancePc_pc, incSp_pc, setReg_pc]
  · rw [advancePc_memRead, incSp_memRead, setReg_memRead]
  · simp [sameRest]
end

section
/-! The pushed return address and the frame of a return, and the statements of `45_call_ret.md` about CALL and RET. -/

open Sys2Proof Sys2Proof.Machine

namespace Sys2Proof.Machine

variable {s : State} {opA : Byte}

/-! ### Call -/

theorem returnAddress_eq (s : State) : returnAddress s = s.pc + 2#8 := wrap8_add_nat s.pc 2

/-- The decrement of the stack pointer that comes before the store leaves the return address what it was (R130). -/
theorem returnAddress_decSp (s : State) : returnAddress s.decSp = s.pc + 2#8 := by
  rw [returnAddress_eq, decSp_pc]

theorem exec_call_of_selects (h : s.selects opA) :
    exec (.call opA) s =
      .next ((s.pushWith returnAddress).setPc ((s.pushWith returnAddress).reg (selected opA))) :=
  withReg_of_selects h

theorem exec_call_of_not_selects (h : ¬ s.selects opA) :
    exec (.call opA) s = .next (s.takeFault .registerIndexFault) :=
  withReg_of_not_selects h

/-! ### Return -/

theorem exec_ret (s : State) : exec .ret s = .next (s.setPc (s.memRead s.sp)).incSp := rfl

theorem setPc_incSp_sameRegsBut (s : State) (v : Byte) : sameRegsBut [s.cfg.spIndex] s (s.setPc v).incSp := by
  intro r hr
  have hne : r ≠ s.cfg.spIndex := List.ne_of_not_mem_cons hr
  rw [incSp_reg_ne (s.setPc v) hne, setPc_reg]

theorem setPc_incSp_sameMemory (s : State) (v : Byte) : sameMemory s (s.setPc v).incSp := fun a => by
  rw [incSp_memRead, setPc_memRead]

theorem setPc_incSp_sameRest (s : State) (v : Byte) : sameRest s (s.setPc v).incSp := by
  simp [sameRest]

end Sys2Proof.Machine

/-- Settles O38 (R130): CALL is a push of the return address and a jump to the operand register, read after the push, or
the fault entry. -/
theorem callPushesReturnAddress : Obligations.CallPushesReturnAddress := fun s opA =>
  ⟨rfl,
    fun hsel => by
      rw [← returnAddress_decSp, ← pushWith_reg (w := returnAddress)]
      exact exec_frame_of_pushWith (exec_call_of_selects hsel),
    exec_call_of_not_selects⟩

/-- Settles O39 (R131): RET is a write of the pc from the old stack pointer's cell and an increment of the stack pointer,
whatever the policy. -/
theorem retPopsPc : Obligations.RetPopsPc := by
  intro s
  refine ⟨rfl, _, exec_ret s, ?_, ?_, setPc_incSp_sameRegsBut s _, setPc_incSp_sameMemory s _, setPc_incSp_sameRest s _⟩
  · rw [incSp_pc, setPc_pc]
  · rw [incSp_sp, setPc_sp]
end

section
/-! The encoder and the decoder as inverses of each other, the number of rejected opcode bytes, and the statements of
`30_encoding.md` about them. -/

open Sys2Proof Sys2Proof.Machine

namespace Sys2Proof

variable {m : OpMap} {i : Instr} {op a b : Byte}

/-- An encoding is matched byte by byte: the opcode, then the operands (R51, R74). -/
theorem encode_prefix_iff : encode m i <+: [op, a, b] ↔ m.byteOf i.mnemonic = op ∧ i.operands <+: [a, b] := by
  rw [encode, List.cons_prefix_cons]

/-- An instruction is put together again from its mnemonic and its operand bytes. -/
theorem Instr.assemble_mnemonic (h : i.operands <+: [a, b]) : Instr.assemble i.mnemonic a b = i := by
  cases i <;> simp_all [Instr.assemble, Instr.mnemonic, Instr.operands]

/-! ### The rejected opcode bytes (R80) -/

/-- The byte values of `OPMAP`, as natural numbers. -/
def OpMap.byteValues (m : OpMap) : List Nat := Mnemonic.all.map fun mn => (m.byteOf mn).toNat

theorem OpMap.byteValues_length (m : OpMap) : m.byteValues.length = 13 := rfl

theorem OpMap.byteValues_nodup (h : m.wf = true) : m.byteValues.Nodup := by
  have hall : Mnemonic.all.Nodup := by decide
  exact hall.map fun x y hxy => OpMap.byteOf_injective h (BitVec.eq_of_toNat_eq hxy)

theorem OpMap.mem_byteValues {n : Nat} : n ∈ m.byteValues ↔ n < 256 ∧ ∃ mn, m.byteOf mn = BitVec.ofNat 8 n := by
  constructor
  · intro hn
    obtain ⟨mn, -, rfl⟩ := List.mem_map.mp hn
    exact ⟨(m.byteOf mn).isLt, mn, (BitVec.ofNat_toNat 8 (m.byteOf mn)).symm⟩
  · rintro ⟨hn, mn, hmn⟩
    refine List.mem_map.mpr ⟨mn, mn.mem_all, ?_⟩
    rw [hmn, BitVec.toNat_ofNat, Nat.mod_eq_of_lt hn]

/-- A byte value is rejected exactly when it is none of `OPMAP`. -/
theorem decode_rejects_iff {n : Nat} (hn : n < 256) :
    decode m (BitVec.ofNat 8 n) a b = .error (.unknownOpcode (BitVec.ofNat 8 n)) ↔ n ∉ m.byteValues := by
  simp [decode_eq_error, OpMap.mem_byteValues, hn]

/-- A list of distinct numbers below `k` leaves out `k` minus its length of them. -/
theorem length_range_filter_not_mem {l : List Nat} {k : Nat} (hl : l.Nodup) (hk : ∀ n ∈ l, n < k) :
    ((List.range k).filter fun n => decide (n ∉ l)).length = k - l.length := by
  have hsub : l.Subperm (List.range k) := List.subperm_of_subset hl fun n hn => List.mem_range.mpr (hk n hn)
  have hperm := List.subperm_append_diff_self_of_count_le (List.subperm_ext_iff.mp hsub)
  have hlen : l.length + ((List.range k).diff l).length = k := by
    rw [← List.length_append, hperm.length_eq, List.length_range]
  rw [← List.nodup_range.sdiff_eq_filter]
  omega

end Sys2Proof

/-- Settles O2 (R74, R79): a matched encoding gives the mnemonic by the injectivity of `OPMAP`, and the operand bytes as
they stand. -/
theorem decodeUndoesEncode : Obligations.DecodeUndoesEncode := by
  intro m i opcode opA opB hwf henc
  obtain ⟨hop, hargs⟩ := encode_prefix_iff.mp henc
  exact decode_eq_ok.mpr ⟨i.mnemonic, (OpMap.mnemonicOf_eq_some hwf).mpr hop, Instr.assemble_mnemonic hargs⟩

/-- Settles O3 (R74, R79): the looked-up mnemonic has the fetched opcode byte, injective `OPMAP` or not. -/
theorem encodeUndoesDecode : Obligations.EncodeUndoesDecode := by
  intro m i opcode opA opB hdec
  obtain ⟨mn, hmn, rfl⟩ := decode_eq_ok.mp hdec
  refine encode_prefix_iff.mpr ⟨?_, Instr.operands_assemble_prefix mn opA opB⟩
  rw [Instr.mnemonic_assemble]
  exact OpMap.byteOf_of_mnemonicOf hmn

/-- Settles O5 (R80): the rejected byte values are those `OPMAP` leaves out, and it has 13 distinct ones. -/
theorem illegalOpcodesAre243 : Obligations.IllegalOpcodesAre243 := by
  intro m hwf
  have hrejected : ∀ n ∈ List.range 256,
      decide (decode m (BitVec.ofNat 8 n) 0 0 = .error (.unknownOpcode (BitVec.ofNat 8 n))) =
        decide (n ∉ m.byteValues) :=
    fun n hn => decide_eq_decide.mpr (decode_rejects_iff (List.mem_range.mp hn))
  rw [List.filter_congr hrejected,
    length_range_filter_not_mem (OpMap.byteValues_nodup hwf) fun n hn => (OpMap.mem_byteValues.mp hn).1,
    OpMap.byteValues_length]

/-- Settles O1 (R74, R78): eight words and the byte 0x00, under the default opcode bytes. -/
theorem defaultWordsDecode : Obligations.DefaultWordsDecode := by
  unfold Obligations.DefaultWordsDecode
  decide
end

section
/-! What an instruction's effect leaves unchanged, register by register and field by field, and the statements of
`10_state.md` and `20_memory.md` about what instructions write. -/

open Sys2Proof Sys2Proof.Machine

namespace Sys2Proof.Machine

variable {s t : State} {i : Instr}

/-- What holds after the effect of an instruction and after its fault entry holds after the instruction. -/
theorem exec_next_induction {P : State → Prop} (h : exec i s = .next t) (heffect : P (effect s i))
    (hfault : P (s.takeFault .registerIndexFault)) : P t := by
  rcases exec_next h with ⟨-, rfl⟩ | ⟨-, rfl⟩
  · exact heffect
  · exact hfault

theorem takeFault_sameRegs (s : State) (c : Cause) : sameRegs s (s.takeFault c) := fun r => takeFault_reg s r c

theorem takeFault_sameMemory (s : State) (c : Cause) : sameMemory s (s.takeFault c) := fun a => takeFault_memRead s a c

/-! ### The fields an effect leaves unchanged -/

theorem effect_jeq (s : State) (a : Byte) :
    effect s (.jeq a) = s.setPc (if s.flagEqual then s.reg (selected a) else s.pc + 2#8) := by
  rw [effect, advancePc_eq_setPc, apply_ite s.setPc]

theorem effect_jne (s : State) (a : Byte) :
    effect s (.jne a) = s.setPc (if s.flagEqual then s.pc + 2#8 else s.reg (selected a)) := by
  rw [effect, advancePc_eq_setPc, apply_ite s.setPc]

theorem effect_fl_of_ne_cmp (h : i.mnemonic ≠ .cmp) : (effect s i).fl = s.fl := by
  cases i with
  | cmp a b => exact absurd rfl h
  | jeq a => rw [effect_jeq, setPc_fl]
  | jne a => rw [effect_jne, setPc_fl]
  | _ => rfl

theorem effect_out_of_ne_prn (h : i.mnemonic ≠ .prn) : (effect s i).out = s.out := by
  cases i with
  | prn a => exact absurd rfl h
  | jeq a => rw [effect_jeq, setPc_out]
  | jne a => rw [effect_jne, setPc_out]
  | _ => rfl

theorem effect_mem_of_ne_push_call (hpush : i.mnemonic ≠ .push) (hcall : i.mnemonic ≠ .call) :
    (effect s i).mem = s.mem := by
  cases i with
  | push a => exact absurd rfl hpush
  | call a => exact absurd rfl hcall
  | jeq a => rw [effect_jeq, setPc_mem]
  | jne a => rw [effect_jne, setPc_mem]
  | _ => rfl

theorem sameMemory_of_mem_eq (h : t.mem = s.mem) : sameMemory s t := fun a => by rw [State.memRead, h, State.memRead]

theorem effect_sameMemoryBut (s : State) (i : Instr) : sameMemoryBut (s.sp - 1#8) s (effect s i) := by
  cases i with
  | push a => exact pushWith_sameMemoryBut s fun u => u.reg (selected a)
  | call a => exact pushWith_sameMemoryBut s returnAddress
  | _ => refine fun b _ => sameMemory_of_mem_eq (effect_mem_of_ne_push_call ?_ ?_) b <;> simp [Instr.mnemonic]

theorem effect_sameRegsBut (s : State) (i : Instr) : sameRegsBut (writtenRegs s.cfg i) s (effect s i) := by
  cases i with
  | ldi a b => exact setReg_advancePc_sameRegsBut s _ _ 3
  | add a b => exact setReg_advancePc_sameRegsBut s _ _ 3
  | mul a b => exact setReg_advancePc_sameRegsBut s _ _ 3
  | push a => exact pushWith_sameRegsBut s fun u => u.reg (selected a)
  | pop a => exact setReg_incSp_sameRegsBut s _ _
  | call a => exact pushWith_sameRegsBut s returnAddress
  | ret => exact setPc_incSp_sameRegsBut s _
  | jeq a => exact fun r _ => by rw [effect_jeq, setPc_reg]
  | jne a => exact fun r _ => by rw [effect_jne, setPc_reg]
  | prn a => exact fun r _ => output_advancePc_sameRegs s _ 2 r
  | cmp a b => exact fun r _ => setFl_advancePc_sameRegs s _ 3 r
  | jmp a => exact fun r _ => setPc_reg s r _
  | hlt => exact fun r _ => halt_reg s r

theorem effect_pc_of_sequential (h : i.mnemonic ∉ [Mnemonic.jmp, .jeq, .jne, .call, .ret, .hlt]) :
    (effect s i).pc = s.pc + BitVec.ofNat 8 i.lengthBytes := by
  cases i with
  | ldi a b => exact advancePc_pc _ 3
  | prn a => exact advancePc_pc _ 2
  | add a b => exact advancePc_pc _ 3
  | mul a b => exact advancePc_pc _ 3
  | cmp a b => exact advancePc_pc _ 3
  | push a => exact advancePc_pc _ 2
  | pop a => exact advancePc_pc _ 2
  | _ => simp [Instr.mnemonic] at h

/-- The output of `t` is that of `s` followed by at most one byte (R42). -/
def outGrowsAtMostOne (s t : State) : Prop := ∃ l, t.out = s.out ++ l ∧ l.length ≤ 1

theorem outGrowsAtMostOne_of_eq (h : t.out = s.out) : outGrowsAtMostOne s t :=
  ⟨[], by rw [h, List.append_nil], Nat.zero_le 1⟩

theorem effect_outGrowsAtMostOne (s : State) (i : Instr) : outGrowsAtMostOne s (effect s i) := by
  cases i with
  | prn a => exact ⟨[s.reg (selected a)], rfl, le_rfl⟩
  | _ => exact outGrowsAtMostOne_of_eq (effect_out_of_ne_prn (by simp [Instr.mnemonic]))

end Sys2Proof.Machine

/-- Settles O23 (R29): the effect of an instruction other than CMP and the fault entry leave FL as it is. -/
theorem onlyCmpWritesFlag : Obligations.OnlyCmpWritesFlag := fun _ s _ h hne =>
  exec_next_induction (P := fun t => t.fl = s.fl) h (effect_fl_of_ne_cmp hne) (takeFault_fl s _)

/-- Settles O25 (R53): a push is the only memory write of an effect, and it is to the byte below the stack pointer. -/
theorem onlyPushAndCallWriteMemory : Obligations.OnlyPushAndCallWriteMemory := fun i s _ h =>
  ⟨fun hpush hcall => exec_next_induction (P := sameMemory s) h
      (sameMemory_of_mem_eq (effect_mem_of_ne_push_call hpush hcall)) (takeFault_sameMemory s _),
    exec_next_induction (P := sameMemoryBut (s.sp - 1#8) s) h (effect_sameMemoryBut s i)
      fun b _ => takeFault_memRead s b _⟩

/-- Settles O26 (R23): the register frame of every effect, and of the fault entry. -/
theorem registersWrittenByTable : Obligations.RegistersWrittenByTable := fun i s _ h =>
  exec_next_induction (P := sameRegsBut (writtenRegs s.cfg i) s) h (effect_sameRegsBut s i)
    fun r _ => takeFault_reg s r _

/-- Settles O27 (R26, R73): the positional increment is the last part of each sequential effect. -/
theorem sequentialAdvanceIsInstructionLength : Obligations.SequentialAdvanceIsInstructionLength := by
  intro i s t h hseq
  have hhlt : i ≠ .hlt := by
    rintro rfl
    simp [Instr.mnemonic] at hseq
  rcases exec_next h with ⟨-, rfl⟩ | ⟨-, hfault⟩
  · exact .inl ⟨by rw [effect_run, if_neg hhlt], effect_pc_of_sequential hseq⟩
  · exact .inr hfault

/-- Settles O22 (R42, R96): no step but that of PRN touches the output, and PRN appends one byte. -/
theorem outputGrowsByPrnOnly : Obligations.OutputGrowsByPrnOnly := by
  refine ⟨fun s t h => ?_, fun i s t h hne =>
    exec_next_induction (P := fun t => t.out = s.out) h (effect_out_of_ne_prn hne) (takeFault_out s _)⟩
  rcases step_next h with ⟨-, rfl⟩ | ⟨-, c, -, rfl⟩ | ⟨-, i, -, he⟩
  · exact outGrowsAtMostOne_of_eq rfl
  · exact outGrowsAtMostOne_of_eq (takeFault_out s c)
  · exact exec_next_induction (P := outGrowsAtMostOne s) he (effect_outGrowsAtMostOne s i)
      (outGrowsAtMostOne_of_eq (takeFault_out s _))
end

section
/-! The invariant of the machine, part by part, at reset and over a step, and the statements about it. -/

open Sys2Proof Sys2Proof.Machine

namespace Sys2Proof.Machine

variable {s t : State}

/-! ### The flag register (R28) -/

theorem compareFlag_cases (c : Config) (a b : Byte) :
    compareFlag c a b = c.flE ∨ compareFlag c a b = c.flL ∨ compareFlag c a b = c.flG := by
  rcases Nat.lt_trichotomy a.toNat b.toNat with hlt | heq | hgt
  · exact .inr (.inl (compareFlag_of_lt c hlt))
  · exact .inl (compareFlag_of_eq c heq)
  · exact .inr (.inr (compareFlag_of_gt c hgt))

theorem flagLegal_of_eq (hcfg : t.cfg = s.cfg) (hfl : t.fl = s.fl) (h : s.flagLegal) : t.flagLegal := by
  rwa [State.flagLegal, hcfg, hfl]

theorem effect_flagLegal (h : s.flagLegal) (i : Instr) : (effect s i).flagLegal := by
  cases i with
  | cmp a b => exact .inr (compareFlag_cases s.cfg (s.reg (selected a)) (s.reg (selected b)))
  | _ => exact flagLegal_of_eq effect_cfg (effect_fl_of_ne_cmp (by simp [Instr.mnemonic])) h

/-! ### The fault record (R34) -/

theorem takeFault_faultAgrees (s : State) (c : Cause) : (s.takeFault c).faultAgrees := by
  simp [State.faultAgrees]

theorem fault_eq_none_of_running (h : s.faultAgrees) (hrun : s.run = .running) : s.fault = none := by
  simpa [State.faultAgrees, hrun] using h

theorem effect_run_ne_faulted (hrun : s.run = .running) (i : Instr) : (effect s i).run ≠ .faulted := by
  rw [effect_run, hrun]
  split <;> decide

theorem effect_faultAgrees (h : s.faultAgrees) (hrun : s.run = .running) (i : Instr) : (effect s i).faultAgrees := by
  simp [State.faultAgrees, fault_eq_none_of_running h hrun, effect_run_ne_faulted hrun i]

/-! ### The invariant -/

theorem takeFault_keeps_invariant (h : s.invariant) (c : Cause) : (s.takeFault c).invariant := by
  obtain ⟨hcfg, hmem, hfl, -⟩ := h
  exact ⟨hcfg, hmem, hfl, takeFault_faultAgrees s c⟩

theorem effect_keeps_invariant (h : s.invariant) (hrun : s.run = .running) (i : Instr) : (effect s i).invariant := by
  obtain ⟨hcfg, hmem, hfl, hfault⟩ := h
  exact ⟨by rwa [effect_cfg], effect_mem_wf hmem, effect_flagLegal hfl i, effect_faultAgrees hfault hrun i⟩

theorem exec_keeps_invariant {i : Instr} (h : s.invariant) (hrun : s.run = .running) (he : exec i s = .next t) :
    t.invariant :=
  exec_next_induction he (effect_keeps_invariant h hrun i) (takeFault_keeps_invariant h _)

theorem resetWith_invariant {c : Config} (h : c.wf = true) : (State.resetWith c).invariant :=
  ⟨h, resetWith_mem_wf c, .inl (resetWith_fl c), by simp [State.faultAgrees]⟩

theorem defaultConfig_wf : defaultConfig.wf = true := by decide

/-! ### The configuration -/

theorem step_cfg (h : step s = .next t) : t.cfg = s.cfg := by
  rcases step_next h with ⟨-, rfl⟩ | ⟨-, c, -, rfl⟩ | ⟨-, i, -, he⟩
  · rfl
  · exact takeFault_cfg s c
  · exact exec_next_induction (P := fun t => t.cfg = s.cfg) he effect_cfg (takeFault_cfg s _)

/-- Every state answers a step, because every instruction does. -/
theorem exists_step_next (s : State) : ∃ t, step s = .next t := by
  by_cases hrun : s.run = .running
  · cases hf : fetchDecode s with
    | error c => exact ⟨_, step_of_error hrun hf⟩
    | ok i =>
      rcases exec_cases i s with ⟨-, he⟩ | ⟨-, he⟩
      · exact ⟨_, (step_of_ok hrun hf).trans he⟩
      · exact ⟨_, (step_of_ok hrun hf).trans he⟩
  · exact ⟨s, step_not_running hrun⟩

/-- What every step keeps, every run keeps. -/
theorem run_next_induction {P : State → Prop} (hstep : ∀ s t, P s → step s = .next t → P t) (k : Nat) (hs : P s)
    (h : Host.Core.run Sys2Proof.core k s = .next t) : P t := by
  induction k generalizing s with
  | zero => rw [run_zero] at h; injection h with h; exact h ▸ hs
  | succ k ih =>
    obtain ⟨u, hu⟩ := exists_step_next s
    rw [run_succ k hu] at h
    exact ih (hstep s u hs hu) h

end Sys2Proof.Machine

/-- Settles O20 (R5, R28, R34, R37): a stopped engine stays as it is, and the fault entry and the effect of an
instruction each keep the four parts of the invariant. -/
theorem stepKeepsInvariant : Obligations.StepKeepsInvariant := by
  intro s t hinv h
  rcases step_next h with ⟨-, rfl⟩ | ⟨-, c, -, rfl⟩ | ⟨hrun, i, -, he⟩
  · exact hinv
  · exact takeFault_keeps_invariant hinv c
  · exact exec_keeps_invariant hinv hrun he

/-- Settles O19 (R5, R46): the four parts hold at reset, and the default parameters are well formed. -/
theorem resetMeetsInvariant : Obligations.ResetMeetsInvariant :=
  ⟨fun _ => resetWith_invariant, resetWith_invariant defaultConfig_wf⟩

/-- Settles O12 (R170): by cases on the run state and on what fetch and decode answer. -/
theorem stepIsTotal : Obligations.StepIsTotal := exists_step_next

/-- Settles O21 (R5): no step changes the parameters, so no run does. -/
theorem configurationIsFixed : Obligations.ConfigurationIsFixed := fun k s _ h =>
  run_next_induction (P := fun t => t.cfg = s.cfg) (fun _ _ hs ht => (step_cfg ht).trans hs) k rfl h

/-- Settles O51 (R46, R180): the reset event is the reset state of the same parameters, field by field. -/
theorem resetFromAnyState : Obligations.ResetFromAnyState := by
  intro s
  refine ⟨resetWith_cfg s.cfg, ?_, fun r hr => ?_, resetWith_pc s.cfg, resetWith_fl s.cfg,
    fun a => resetWith_memRead a s.cfg, resetWith_run s.cfg, resetWith_fault s.cfg, resetWith_out s.cfg⟩
  · exact (resetWith_reg s.cfg.spIndex s.cfg).trans (if_pos rfl)
  · exact (resetWith_reg r s.cfg).trans (if_neg hr)
end

section
/-! Instructions with another value in the flag register, and the statement of `10_state.md` about what reads it. -/

open Sys2Proof Sys2Proof.Machine

namespace Sys2Proof.Machine

variable {s t : State} {i : Instr} {v : Byte}

/-- The two ways in which an instruction cannot tell `v` from what FL holds: it is no conditional jump, or both compare
alike with `FL_E` (R29). -/
def flagBlind (i : Instr) (s : State) (v : Byte) : Prop :=
  (i.mnemonic ≠ .jeq ∧ i.mnemonic ≠ .jne) ∨ (s.fl = s.cfg.flE ↔ v = s.cfg.flE)

theorem flagEqual_setFl (h : s.fl = s.cfg.flE ↔ v = s.cfg.flE) : (s.setFl v).flagEqual = s.flagEqual :=
  decide_eq_decide.mpr h.symm

theorem flagEqual_setFl_of_jump (hjump : i.mnemonic = .jeq ∨ i.mnemonic = .jne) (h : flagBlind i s v) :
    (s.setFl v).flagEqual = s.flagEqual := by
  refine flagEqual_setFl (h.resolve_left fun ⟨hjeq, hjne⟩ => ?_)
  exact hjump.elim hjeq hjne

theorem accessed_setFl (h : flagBlind i s v) : accessed (s.setFl v) i = accessed s i := by
  cases i with
  | jeq a => rw [accessed, accessed, flagEqual_setFl_of_jump (.inl rfl) h]
  | jne a => rw [accessed, accessed, flagEqual_setFl_of_jump (.inr rfl) h]
  | _ => rfl

/-- An instruction that does not write FL carries the other value along. -/
theorem effect_setFl_of_ne_cmp (hne : i.mnemonic ≠ .cmp) (h : flagBlind i s v) :
    effect (s.setFl v) i = (effect s i).setFl v := by
  cases i with
  | cmp a b => exact absurd rfl hne
  | jeq a => rw [effect_jeq, effect_jeq, flagEqual_setFl_of_jump (.inl rfl) h]; rfl
  | jne a => rw [effect_jne, effect_jne, flagEqual_setFl_of_jump (.inr rfl) h]; rfl
  | _ => rfl

/-- CMP overwrites whatever FL held. -/
theorem effect_setFl_cmp (s : State) (v a b : Byte) : effect (s.setFl v) (.cmp a b) = effect s (.cmp a b) := rfl

theorem takeFault_setFl (s : State) (v : Byte) (c : Cause) : (s.setFl v).takeFault c = (s.takeFault c).setFl v := rfl

theorem accessed_cmp_selects {a b : Byte} :
    (∀ c ∈ accessed s (.cmp a b), s.selects c) ↔ s.selects a ∧ s.selects b := by
  simp [accessed]

/-- An instruction from a state with another FL: the state it answers is the same, but for FL, and FL is the same only
where a CMP has written it. -/
theorem exec_setFl (h : exec i s = .next t) (hblind : flagBlind i s v) :
    (exec i (s.setFl v) = .next t ∧ ∃ a b, i = .cmp a b ∧ s.selects a ∧ s.selects b) ∨
      (exec i (s.setFl v) = .next (t.setFl v) ∧ ∀ a b, i = .cmp a b → ¬ (s.selects a ∧ s.selects b)) := by
  have hacc := accessed_setFl hblind
  rcases exec_next h with ⟨hsel, rfl⟩ | ⟨hnot, rfl⟩
  · have he : exec i (s.setFl v) = .next (effect (s.setFl v) i) := exec_of_selects (by rwa [hacc])
    by_cases hcmp : i.mnemonic = .cmp
    · cases i with
      | cmp a b =>
        rw [effect_setFl_cmp] at he
        exact .inl ⟨he, a, b, rfl, accessed_cmp_selects.mp hsel⟩
      | _ => cases hcmp
    · rw [effect_setFl_of_ne_cmp hcmp hblind] at he
      exact .inr ⟨he, fun a b hi => absurd (congrArg Instr.mnemonic hi) hcmp⟩
  · have he : exec i (s.setFl v) = .next ((s.setFl v).takeFault .registerIndexFault) :=
      exec_of_not_selects (by rwa [hacc])
    rw [takeFault_setFl] at he
    refine .inr ⟨he, ?_⟩
    rintro a b rfl hboth
    obtain ⟨c, hc, hns⟩ := hnot
    exact hns (accessed_cmp_selects.mpr hboth c hc)

end Sys2Proof.Machine

/-- Settles O24 (R29, R104): from the other FL the instruction answers either the same state, after a CMP that wrote FL,
or the same state with the other FL. -/
theorem onlyConditionalJumpsReadFlag : Obligations.OnlyConditionalJumpsReadFlag := by
  intro i s t v h hblind
  rcases exec_setFl h hblind with ⟨he, a, b, rfl, ha, hb⟩ | ⟨he, hnot⟩
  · refine ⟨t, he, rfl, rfl, rfl, rfl, rfl, rfl, rfl, fun _ _ _ _ _ => rfl, ?_, fun hne => absurd rfl hne⟩
    rintro _ _ ⟨⟩ hnot
    exact absurd ⟨ha, hb⟩ hnot
  · exact ⟨t.setFl v, he, rfl, rfl, rfl, rfl, rfl, rfl, rfl,
      fun opA opB hi ha hb => absurd ⟨ha, hb⟩ (hnot opA opB hi), fun _ _ _ _ => rfl, fun _ => rfl⟩
end

section
/-! Fetch and step: what a running engine does with the bytes at the program counter, which fault it takes, and what a
stopped engine does; the statements of `60_exceptions.md`, and those of `30_encoding.md` about the fetch. -/

open Sys2Proof Sys2Proof.Machine

namespace Sys2Proof.Machine

variable {s t : State} {i : Instr} {c : Cause}

/-! ### Where the fetch raises nothing (R70 to R72) -/

theorem fetch_eq_some_iff {op a b : Byte} :
    fetch s = some (op, a, b) ↔ (s.cfg.oorPolicy = .wrap ∨ s.pc.toNat ≤ 253) ∧ op = s.memRead s.pc ∧
      a = s.memRead (s.pc + 1#8) ∧ b = s.memRead (s.pc + 2#8) := by
  constructor
  · exact fetch_some
  · rintro ⟨hlow, rfl, rfl, rfl⟩
    exact fetch_of_low hlow

/-- The fetch raises nothing exactly where it is not out of range under the Fault policy. -/
theorem not_fetchFaults_iff :
    ¬ (s.cfg.oorPolicy = .fault ∧ 254 ≤ s.pc.toNat) ↔ s.cfg.oorPolicy = .wrap ∨ s.pc.toNat ≤ 253 := by
  cases s.cfg.oorPolicy with
  | wrap => simp
  | fault => simp; omega

theorem fetchDecode_of_fetchFaults (hpol : s.cfg.oorPolicy = .fault) (hpc : 254 ≤ s.pc.toNat) :
    fetchDecode s = .error .addressFault := by
  rw [fetchDecode, fetch_of_high hpol hpc]

theorem fetchDecode_of_unknownOpcode (hlow : s.cfg.oorPolicy = .wrap ∨ s.pc.toNat ≤ 253)
    (hop : ∀ mn, s.cfg.opMap.byteOf mn ≠ s.memRead s.pc) : fetchDecode s = .error .unknownOpcode := by
  simp only [fetchDecode, fetch_of_low hlow, decode_eq_error.mpr hop]

/-! ### A stopped engine (R33, R141) -/

theorem ended_iff : s.ended ↔ s.run ≠ .running := by
  unfold State.ended
  cases s.run <;> simp

theorem run_of_not_running (h : s.run ≠ .running) (k : Nat) : Host.Core.run Sys2Proof.core k s = .next s := by
  induction k with
  | zero => exact run_zero s
  | succ k ih => exact (run_succ k (step_not_running h)).trans ih

theorem run_takeFault (s : State) (c : Cause) (k : Nat) :
    Host.Core.run Sys2Proof.core k (s.takeFault c) = .next (s.takeFault c) :=
  run_of_not_running (by simp) k

/-! ### How a running engine stops -/

/-- An engine that a step leaves FAULTED has taken a fault of the fetch, of the decoder or of a register operand. -/
theorem step_faulted (hrun : s.run = .running) (h : step s = .next t) (hfaulted : t.run = .faulted) :
    (∃ c, fetchDecode s = .error c ∧ t = s.takeFault c) ∨
      (∃ i, fetchDecode s = .ok i ∧ (∃ b ∈ accessed s i, ¬ s.selects b) ∧ t = s.takeFault .registerIndexFault) := by
  rcases step_next h with ⟨hnot, -⟩ | ⟨-, herror⟩ | ⟨-, i, hi, he⟩
  · exact absurd hrun hnot
  · exact .inl herror
  · rcases exec_next he with ⟨-, rfl⟩ | hreg
    · exact absurd hfaulted (effect_run_ne_faulted hrun i)
    · exact .inr ⟨i, hi, hreg⟩

theorem step_faulted_takeFault (hrun : s.run = .running) (h : step s = .next t) (hfaulted : t.run = .faulted) :
    ∃ c, t = s.takeFault c := by
  rcases step_faulted hrun h hfaulted with ⟨c, -, ht⟩ | ⟨-, -, -, ht⟩
  · exact ⟨c, ht⟩
  · exact ⟨_, ht⟩

theorem step_halted (hrun : s.run = .running) (h : step s = .next t) (hhalted : t.run = .halted) :
    fetchDecode s = .ok .hlt ∧ exec .hlt s = .next t := by
  rcases step_next h with ⟨hnot, -⟩ | ⟨-, c, -, rfl⟩ | ⟨-, i, hi, he⟩
  · exact absurd hrun hnot
  · simp at hhalted
  · rcases exec_next he with ⟨-, rfl⟩ | ⟨-, rfl⟩
    · by_cases hhlt : i = .hlt
      · subst hhlt
        exact ⟨hi, he⟩
      · rw [effect_run, if_neg hhlt, hrun] at hhalted
        cases hhalted
    · simp at hhalted

theorem memRead_pc_of_fetchDecode_ok (h : fetchDecode s = .ok i) : s.memRead s.pc = s.cfg.opMap.byteOf i.mnemonic := by
  obtain ⟨mn, hmn, rfl⟩ := decode_eq_ok.mp (fetchDecode_ok h).2
  rw [Instr.mnemonic_assemble, OpMap.byteOf_of_mnemonicOf hmn]

/-- The two causes of fetch and decode, in the order of R157, as conditions on the state alone. -/
theorem fetchDecode_eq_error_iff :
    fetchDecode s = .error c ↔
      (c = .addressFault ∧ s.cfg.oorPolicy = .fault ∧ 254 ≤ s.pc.toNat) ∨
      (c = .unknownOpcode ∧ (s.cfg.oorPolicy = .wrap ∨ s.pc.toNat ≤ 253) ∧
        ∀ mn, s.cfg.opMap.byteOf mn ≠ s.memRead s.pc) := by
  constructor
  · exact fetchDecode_error
  · rintro (⟨rfl, hpol, hpc⟩ | ⟨rfl, hlow, hop⟩)
    · exact fetchDecode_of_fetchFaults hpol hpc
    · exact fetchDecode_of_unknownOpcode hlow hop

theorem fetchDecode_eq_addressFault_iff :
    fetchDecode s = .error .addressFault ↔ s.cfg.oorPolicy = .fault ∧ 254 ≤ s.pc.toNat := by
  simp [fetchDecode_eq_error_iff]

theorem fetchDecode_eq_unknownOpcode_iff :
    fetchDecode s = .error .unknownOpcode ↔
      ¬ (s.cfg.oorPolicy = .fault ∧ 254 ≤ s.pc.toNat) ∧ ∀ mn, s.cfg.opMap.byteOf mn ≠ s.memRead s.pc := by
  rw [not_fetchFaults_iff, fetchDecode_eq_error_iff]
  simp

/-- The record of a step: its fields, and that its cause is what fetch and decode answer, if they answer a cause. -/
theorem step_fault_record {r : FaultRecord} (hrun : s.run = .running) (hnone : s.fault = none)
    (h : step s = .next t) (hr : t.fault = some r) :
    r.opcode = s.memRead s.pc ∧ r.address = s.pc ∧
      (fetchDecode s = .error r.cause ∨ r.cause = .registerIndexFault ∧ ∃ i, fetchDecode s = .ok i) := by
  rcases step_next h with ⟨hnot, -⟩ | ⟨-, c, hc, rfl⟩ | ⟨-, i, hi, he⟩
  · exact absurd hrun hnot
  · rw [takeFault_fault, Option.some.injEq] at hr
    subst hr
    exact ⟨rfl, rfl, .inl hc⟩
  · rcases exec_next he with ⟨-, rfl⟩ | ⟨-, rfl⟩
    · rw [effect_fault, hnone] at hr
      cases hr
    · rw [takeFault_fault, Option.some.injEq] at hr
      subst hr
      exact ⟨rfl, rfl, .inr ⟨rfl, i, hi⟩⟩

/-- A recorded cause other than RegisterIndexFault is the answer of fetch and decode. -/
theorem cause_eq_iff {r : FaultRecord} (hne : c ≠ .registerIndexFault)
    (h : fetchDecode s = .error r.cause ∨ r.cause = .registerIndexFault ∧ ∃ i, fetchDecode s = .ok i) :
    r.cause = c ↔ fetchDecode s = .error c := by
  rcases h with herr | ⟨hreg, i, hi⟩
  · rw [herr, Except.error.injEq]
  · simp [hreg, hi, hne.symm]

end Sys2Proof.Machine

/-- Settles O6 (R70 to R72): where the fetch raises nothing, and which cells it reads there. -/
theorem fetchReadsThreeBytes : Obligations.FetchReadsThreeBytes := fun _ _ _ _ => fetch_eq_some_iff

/-- Settles O7 (R72): the operand addresses are out of range, so the fetch fails before anything is decoded. -/
theorem fetchFaultsAtTopOfMemory : Obligations.FetchFaultsAtTopOfMemory := fun _ hrun hpol hpc =>
  step_of_error hrun (fetchDecode_of_fetchFaults hpol hpc)

/-- Settles O8 (R170): fetch and decode answer the instruction, and the step is its `exec`. -/
theorem stepRunsDecodedInstruction : Obligations.StepRunsDecodedInstruction := fun _ _ hrun hlow hdec =>
  step_of_ok hrun (fetchDecode_of_decode hlow hdec)

/-- Settles O9 (R150, R158): the step is a fault entry, and a step from a fault entry changes nothing. -/
theorem unknownOpcodeIsFatal : Obligations.UnknownOpcodeIsFatal := fun s hrun hlow hop =>
  ⟨_, step_of_error hrun (fetchDecode_of_unknownOpcode hlow hop), takeFault_run s _, takeFault_fault s _,
    step_not_running (by simp)⟩

/-- Settles O10 (R158): field by field. -/
theorem faultEntryRecordsAndStops : Obligations.FaultEntryRecordsAndStops := fun s c =>
  ⟨takeFault_fault s c, takeFault_run s c, takeFault_pc s c, takeFault_sameRegs s c, takeFault_fl s c,
    takeFault_sameMemory s c, takeFault_out s c, takeFault_cfg s c⟩

/-- Settles O11 (R33, R141): by induction on the number of steps. -/
theorem stoppedEngineNeverChanges : Obligations.StoppedEngineNeverChanges := fun k _ hended =>
  run_of_not_running (ended_iff.mp hended) k

/-- Settles O13 (R33): a step ends HALTED by the effect of HLT only, and FAULTED by a fault entry only. -/
theorem runStateTransitions : Obligations.RunStateTransitions := by
  intro s t h
  refine ⟨fun hrun hhalted => ?_, fun hrun => step_faulted_takeFault hrun h, fun hnot => ?_⟩
  · obtain ⟨hhlt, he⟩ := step_halted hrun h hhalted
    exact ⟨memRead_pc_of_fetchDecode_ok hhlt, he⟩
  · rw [step_not_running hnot] at h
    injection h with h
    exact h.symm

/-- Settles O14 (R160): the frame of the fault entry, and that a run from it stays in it. -/
theorem faultsArePrecise : Obligations.FaultsArePrecise := by
  intro s t hrun h hfaulted
  obtain ⟨c, rfl⟩ := step_faulted_takeFault hrun h hfaulted
  exact ⟨takeFault_sameRegs s c, takeFault_pc s c, takeFault_fl s c, takeFault_sameMemory s c, takeFault_out s c,
    run_takeFault s c⟩

/-- Settles O15 (R155): under Wrap every operand byte selects and every operand address is in range, so the decoder's
fault is the one that is left. -/
theorem wrapPolicyFaultsOnlyOnUnknownOpcode : Obligations.WrapPolicyFaultsOnlyOnUnknownOpcode := by
  intro s t hrun hwrap h hfaulted
  rcases step_faulted hrun h hfaulted with ⟨c, hc, rfl⟩ | ⟨i, -, ⟨b, -, hnot⟩, -⟩
  · rcases fetchDecode_error hc with ⟨-, hpol, -⟩ | ⟨rfl, -, hop⟩
    · rw [hwrap] at hpol
      cases hpol
    · exact ⟨rfl, hop⟩
  · exact absurd (.inl hwrap) hnot

/-- Settles O16 (R157): the causes of fetch and decode are conditions on the state, and a register operand is looked at
only when neither holds. -/
theorem faultPriority : Obligations.FaultPriority := by
  intro s t r hrun hnone h hr
  obtain ⟨hop, haddr, hcause⟩ := step_fault_record hrun hnone h hr
  exact ⟨hop, haddr, (cause_eq_iff (by decide) hcause).trans fetchDecode_eq_addressFault_iff,
    (cause_eq_iff (by decide) hcause).trans fetchDecode_eq_unknownOpcode_iff⟩

/-- Settles O53 (R80, R81): the byte 0x00 is none of the default opcode bytes. -/
theorem emptyMemoryFaultsAtOnce : Obligations.EmptyMemoryFaultsAtOnce := by
  have hop : ∀ mn, State.reset.cfg.opMap.byteOf mn ≠ State.reset.memRead State.reset.pc := by
    intro mn
    cases mn <;> decide
  exact ⟨_, step_of_error rfl (fetchDecode_of_unknownOpcode (.inl rfl) hop), rfl, rfl⟩
end

section
/-! A step under the other out-of-range policy and a step after a store at the program counter, and the two statements
about them. -/

open Sys2Proof Sys2Proof.Machine

namespace Sys2Proof.Machine

variable {s : State} {i : Instr}

/-! ### The out-of-range policy (R194) -/

/-- Below 254 fetch and decode do not see the policy. -/
theorem fetchDecode_withPolicy (hpc : s.pc.toNat ≤ 253) (p : OorPolicy) :
    fetchDecode (s.withPolicy p) = fetchDecode (s.withPolicy .wrap) := by
  rw [fetchDecode, fetchDecode, fetch_of_low (s := s.withPolicy p) (.inr hpc),
    fetch_of_low (s := s.withPolicy .wrap) (.inr hpc)]
  rfl

/-- What an instruction does with selecting operands does not depend on the policy. -/
theorem effect_withPolicy (s : State) (p : OorPolicy) (i : Instr) :
    effect (s.withPolicy p) i = (effect s i).withPolicy p := by
  cases i with
  | jeq a => rw [effect_jeq, effect_jeq]; rfl
  | jne a => rw [effect_jne, effect_jne]; rfl
  | _ => rfl

theorem accessed_subset_regOperands (s : State) (i : Instr) : accessed s i ⊆ i.regOperands := by
  cases i with
  | jeq a => cases hfl : s.flagEqual <;> simp [accessed, Instr.regOperands, hfl]
  | jne a => cases hfl : s.flagEqual <;> simp [accessed, Instr.regOperands, hfl]
  | _ => exact List.Subset.refl _

/-- The register bytes of a well-formed instruction select under both policies (R75). -/
theorem accessed_selects_of_wf (h : i.wf = true) (s : State) : ∀ b ∈ accessed s i, s.selects b := by
  intro b hb
  have hok : regByteOk b = true := List.all_eq_true.mp h b (accessed_subset_regOperands s i hb)
  exact .inr (of_decide_eq_true hok)

theorem exec_withPolicy (h : i.wf = true) (s : State) (p : OorPolicy) :
    exec i (s.withPolicy p) = .next ((effect s i).withPolicy p) := by
  rw [exec_of_selects (accessed_selects_of_wf h (s.withPolicy p)), effect_withPolicy]

/-! ### A store at the program counter (R70, log entry 16) -/

theorem withFetchWord_cfg (s : State) (nbits w : Nat) : (s.withFetchWord nbits w).cfg = s.cfg := rfl

theorem withFetchWord_pc (s : State) (nbits w : Nat) : (s.withFetchWord nbits w).pc = s.pc := rfl

/-- Each of the three bytes is read back where it was stored, also across the top of memory. -/
theorem withFetchWord_memRead (s : State) (nbits w : Nat) :
    (s.withFetchWord nbits w).memRead s.pc = tableByte nbits w 0 ∧
    (s.withFetchWord nbits w).memRead (s.pc + 1#8) = tableByte nbits w 1 ∧
    (s.withFetchWord nbits w).memRead (s.pc + 2#8) = tableByte nbits w 2 := by
  have h01 : s.pc ≠ s.pc + 1#8 := by simp
  have h02 : s.pc ≠ s.pc + 2#8 := by simp
  have h12 : s.pc + 1#8 ≠ s.pc + 2#8 := by simp
  simp [State.withFetchWord, storeFetchWord, memRead_memWrite, h01, h02, h12]

end Sys2Proof.Machine

/-- Settles O17 (R194): below 254 fetch and decode answer the same under both policies, a fault entry takes no account
of the policy, and the operands of a well-formed instruction select under both. -/
theorem policiesAgreeOnWellFormedCode : Obligations.PoliciesAgreeOnWellFormedCode := by
  intro s hpc hwf
  suffices h : ∃ t : State, ∀ p, step (s.withPolicy p) = .next (t.withPolicy p) from
    h.imp fun t ht => ⟨ht .wrap, ht .fault⟩
  by_cases hrun : s.run = .running
  · cases hf : fetchDecode (s.withPolicy .wrap) with
    | error c => exact ⟨s.takeFault c, fun p => step_of_error hrun ((fetchDecode_withPolicy hpc p).trans hf)⟩
    | ok i =>
      have hi : i.wf = true := hwf i (fetchDecode_ok hf).2
      exact ⟨effect s i, fun p =>
        (step_of_ok (s := s.withPolicy p) hrun ((fetchDecode_withPolicy hpc p).trans hf)).trans (exec_withPolicy hi s p)⟩
  · exact ⟨s, fun p => step_not_running hrun⟩

/-- Settles O18 (R70): fetch and decode answer the stored bytes, so the step is the instruction they encode. -/
theorem storedInstructionIsRunNext : Obligations.StoredInstructionIsRunNext := by
  intro s nbits w i hrun hlow hdec
  obtain ⟨h0, h1, h2⟩ := withFetchWord_memRead s nbits w
  have hfetch : fetchDecode (s.withFetchWord nbits w) = .ok i := by
    refine fetchDecode_of_decode hlow ?_
    rwa [withFetchWord_cfg, withFetchWord_pc, h0, h1, h2]
  exact step_of_ok hrun hfetch
end

section
/-! Memory as a whole: the canonical form is determined by what it reads as, and a loaded image reads back; the
statements about the canonical form and about launch. -/

open Sys2Proof Sys2Proof.Machine

namespace Sys2Proof.Machine

variable {m n : Memory} {a j k lo : Nat} {v w : Byte}

/-! ### The canonical form and its contents -/

theorem Memory.read_cons_self (k : Nat) (v : Byte) (m : Memory) : Memory.read ((k, v) :: m) k = v := if_pos rfl

theorem Memory.read_cons_ne (h : k ≠ a) (v : Byte) (m : Memory) : Memory.read ((k, v) :: m) a = Memory.read m a :=
  if_neg h

/-- Nothing is listed below the address where a canonical part starts. -/
theorem Memory.read_of_lt (hm : Memory.wfFrom lo m = true) (ha : a < lo) : Memory.read m a = Memory.unlisted := by
  induction m generalizing lo with
  | nil => rfl
  | cons c rest ih =>
    obtain ⟨k, v⟩ := c
    obtain ⟨hlo, -, -, hrest⟩ := Memory.wfFrom_cons.mp hm
    rw [Memory.read_cons_ne (by omega), ih hrest (by omega)]

/-- The first listed address is the least that does not read as an unlisted one. -/
theorem Memory.head_le_of_read_ne (hm : Memory.wfFrom lo ((k, v) :: m) = true)
    (ha : Memory.read ((k, v) :: m) a ≠ Memory.unlisted) : k ≤ a := by
  by_contra hlt
  obtain ⟨-, hk, hv, hrest⟩ := Memory.wfFrom_cons.mp hm
  exact ha (Memory.read_of_lt (Memory.wfFrom_cons.mpr ⟨le_rfl, hk, hv, hrest⟩) (by omega))

theorem Memory.eq_nil_of_read (hm : Memory.wfFrom lo m = true) (h : ∀ a < 256, Memory.read m a = Memory.unlisted) :
    m = [] := by
  cases m with
  | nil => rfl
  | cons c rest =>
    obtain ⟨k, v⟩ := c
    obtain ⟨-, hk, hv, -⟩ := Memory.wfFrom_cons.mp hm
    exact absurd (h k hk) (by rwa [Memory.read_cons_self])

/-- Canonical memories that read alike list the same address first. -/
theorem Memory.head_eq_of_read (hm : Memory.wfFrom lo ((k, v) :: m) = true) (hn : Memory.wfFrom j ((a, w) :: n) = true)
    (h : ∀ b < 256, Memory.read ((k, v) :: m) b = Memory.read ((a, w) :: n) b) : k = a := by
  obtain ⟨-, hk, hv, -⟩ := Memory.wfFrom_cons.mp hm
  obtain ⟨-, ha, hw, -⟩ := Memory.wfFrom_cons.mp hn
  have hak : a ≤ k := Memory.head_le_of_read_ne hn (by rwa [← h k hk, Memory.read_cons_self])
  have hka : k ≤ a := Memory.head_le_of_read_ne hm (by rwa [h a ha, Memory.read_cons_self])
  exact Nat.le_antisymm hka hak

theorem Memory.eq_of_read (hm : Memory.wfFrom lo m = true) (hn : Memory.wfFrom lo n = true)
    (h : ∀ a < 256, Memory.read m a = Memory.read n a) : m = n := by
  induction m generalizing n lo with
  | nil => exact (Memory.eq_nil_of_read hn fun a ha => (h a ha).symm).symm
  | cons c rest ih =>
    obtain ⟨k, v⟩ := c
    cases n with
    | nil => exact Memory.eq_nil_of_read hm h
    | cons d rest' =>
      obtain ⟨j, w⟩ := d
      obtain rfl : k = j := Memory.head_eq_of_read hm hn h
      obtain ⟨-, hk, -, hrest⟩ := Memory.wfFrom_cons.mp hm
      obtain ⟨-, -, -, hrest'⟩ := Memory.wfFrom_cons.mp hn
      obtain rfl : v = w := by simpa only [Memory.read_cons_self] using h k hk
      have htail : ∀ a < 256, Memory.read rest a = Memory.read rest' a := fun a ha => by
        by_cases hka : k = a
        · rw [Memory.read_of_lt hrest (by omega), Memory.read_of_lt hrest' (by omega)]
        · simpa only [Memory.read_cons_ne hka] using h a ha
      rw [ih hrest hrest' htail]

/-! ### Writing an image -/

/-- An image written from `a` on reads back from `a` on, and what lies below or beyond it is unchanged. -/
theorem Memory.read_writeAll (image : List Byte) (m : Memory) (a b : Nat) :
    Memory.read (m.writeAll a image) b = if a ≤ b then image.getD (b - a) (Memory.read m b) else Memory.read m b := by
  induction image generalizing m a with
  | nil => simp [Memory.writeAll]
  | cons x rest ih =>
    rw [Memory.writeAll, ih, Memory.read_write]
    rcases Nat.lt_trichotomy a b with hlt | rfl | hgt
    · obtain ⟨d, rfl⟩ : ∃ d, b = a + 1 + d := Nat.exists_eq_add_of_le hlt
      have hsub : a + 1 + d - a = d + 1 := by omega
      have hne : a + 1 + d ≠ a := by omega
      simp [hsub, hne, hlt.le]
    · simp
    · simp [hgt.ne, Nat.not_le.mpr hgt, Nat.not_le.mpr (Nat.lt_succ_of_lt hgt)]

theorem Memory.wf_writeAll (image : List Byte) (hm : Memory.wf m = true) (hfit : a + image.length ≤ 256) :
    Memory.wf (m.writeAll a image) = true := by
  induction image generalizing m a with
  | nil => exact hm
  | cons x rest ih =>
    rw [List.length_cons] at hfit
    exact ih (Memory.wf_write hm (by omega) x) (by omega)

/-- The state an image of at most 256 bytes is launched in (R185, R186). -/
def launchState (c : Config) (image : List Byte) : State :=
  { State.resetWith c with mem := Memory.writeAll [] 0 image }

theorem launch_of_fits (c : Config) {image : List Byte} (h : image.length ≤ 256) :
    launch c image = .next (launchState c image) := if_pos h

theorem launch_of_too_long (c : Config) {image : List Byte} (h : 256 < image.length) :
    launch c image = .refused .imageTooLong := if_neg (by omega)

theorem launchState_memRead (c : Config) (image : List Byte) (a : Byte) :
    (launchState c image).memRead a = image.getD a.toNat 0#8 := by
  rw [State.memRead, launchState, Memory.read_writeAll, if_pos (Nat.zero_le a.toNat), Nat.sub_zero]
  rfl

theorem launchState_invariant {c : Config} {image : List Byte} (hc : c.wf = true) (h : image.length ≤ 256) :
    (launchState c image).invariant := by
  obtain ⟨hcfg, hmem, hfl, hfault⟩ := resetWith_invariant hc
  exact ⟨hcfg, Memory.wf_writeAll image hmem (by omega), hfl, hfault⟩

end Sys2Proof.Machine

/-- Settles O42 (R37, log entry 11): by induction on one list, comparing the first listed address of both. -/
theorem canonicalMemoryIsItsContents : Obligations.CanonicalMemoryIsItsContents := by
  intro m n hm hn h
  refine Memory.eq_of_read hm hn fun a ha => ?_
  have hread := h (BitVec.ofNat 8 a)
  rwa [BitVec.toNat_ofNat, Nat.mod_eq_of_lt ha] at hread

/-- Settles O52 (R44, R186): the launch state is the reset state with the image written from address 0 on. -/
theorem launchLoadsImage : Obligations.LaunchLoadsImage := fun c image =>
  ⟨fun hfits => ⟨launchState c image, launch_of_fits c hfits, launchState_memRead c image, fun _ => rfl, rfl,
    ⟨rfl, rfl, rfl, rfl, rfl⟩, fun hc => launchState_invariant hc hfits⟩,
    launch_of_too_long c⟩
end

section
/-! Laws of single instructions: the flag patterns of a comparison, jumps before any comparison, the stack pointer as an
operand, HLT and the mnemonics the ALU rejects. -/

open Sys2Proof Sys2Proof.Machine

namespace Sys2Proof.Machine

variable {s : State} {c : Config} {opA opB a b : Byte}

/-! ### The flag patterns (R5, decision D3) -/

/-- The three constraints of R5. -/
theorem config_wf_iff : c.wf = true ↔
    c.opMap.wf = true ∧ [0, c.flE, c.flL, c.flG].Nodup ∧ c.exitStatusFault ≠ 0 := by
  simp only [Config.wf, Bool.and_eq_true, decide_eq_true_eq, and_assoc]

/-- The four flag values are pairwise distinct. -/
theorem flags_distinct_of_wf (h : c.wf = true) :
    (0#8 ≠ c.flE ∧ 0#8 ≠ c.flL ∧ 0#8 ≠ c.flG) ∧ c.flE ≠ c.flL ∧ c.flE ≠ c.flG ∧ c.flL ≠ c.flG := by
  obtain ⟨-, hnodup, -⟩ := config_wf_iff.mp h
  simpa [and_assoc] using hnodup

theorem compareFlag_ne_zero (h : c.wf = true) (a b : Byte) : compareFlag c a b ≠ 0#8 := by
  obtain ⟨⟨hE, hL, hG⟩, -⟩ := flags_distinct_of_wf h
  rcases compareFlag_cases c a b with hflag | hflag | hflag
  · rw [hflag]; exact hE.symm
  · rw [hflag]; exact hL.symm
  · rw [hflag]; exact hG.symm

theorem compareFlag_eq_flE_iff (h : c.wf = true) : compareFlag c a b = c.flE ↔ a = b := by
  obtain ⟨-, hEL, hEG, -⟩ := flags_distinct_of_wf h
  refine Iff.trans ?_ BitVec.toNat_inj
  rcases Nat.lt_trichotomy a.toNat b.toNat with hlt | heq | hgt
  · rw [compareFlag_of_lt c hlt]
    exact iff_of_false hEL.symm hlt.ne
  · exact iff_of_true (compareFlag_of_eq c heq) heq
  · rw [compareFlag_of_gt c hgt]
    exact iff_of_false hEG.symm hgt.ne'

/-- LESS_THAN is GREATER_THAN of the swapped operands. -/
theorem compareFlag_swap (h : c.wf = true) : compareFlag c a b = c.flL ↔ compareFlag c b a = c.flG := by
  obtain ⟨-, hEL, hEG, hLG⟩ := flags_distinct_of_wf h
  rcases Nat.lt_trichotomy a.toNat b.toNat with hlt | heq | hgt
  · exact iff_of_true (compareFlag_of_lt c hlt) (compareFlag_of_gt c hlt)
  · rw [compareFlag_of_eq c heq, compareFlag_of_eq c heq.symm]
    exact iff_of_false hEL hEG
  · rw [compareFlag_of_gt c hgt, compareFlag_of_lt c hgt]
    exact iff_of_false hLG.symm hLG

/-! ### HLT and the ALU -/

theorem exec_hlt (s : State) : exec .hlt s = .next (s.halt.advancePc s.cfg.hltPcAdvance.val) := rfl

/-- The mnemonics of the ALU write a register or FL, so memory and the pc stay (R100). -/
theorem alu_frame (ra rb : RegIdx) (s : State) {op : Mnemonic} (h : op ∈ [Mnemonic.add, .mul, .cmp]) :
    ∃ t, alu op ra rb s = .ok t ∧ sameMemory s t ∧ t.pc = s.pc := by
  cases op with
  | add => exact ⟨_, rfl, fun a => setReg_memRead s ra _ a, setReg_pc s ra _⟩
  | mul => exact ⟨_, rfl, fun a => setReg_memRead s ra _ a, setReg_pc s ra _⟩
  | cmp => exact ⟨_, rfl, fun a => setFl_memRead s _ a, setFl_pc s _⟩
  | _ => simp at h

theorem alu_rejects (ra rb : RegIdx) (s : State) {op : Mnemonic} (h : op ∉ [Mnemonic.add, .mul, .cmp]) :
    alu op ra rb s = .error .unsupportedAluOp := by
  cases op with
  | add => simp at h
  | mul => simp at h
  | cmp => simp at h
  | _ => rfl

end Sys2Proof.Machine

/-- Settles O43 (R107): each instruction writes its first operand, with a sum or a product that does not depend on the
order. -/
theorem addAndMulCommute : Obligations.AddAndMulCommute := by
  intro s opA opB ha hb
  refine ⟨⟨_, _, aluInstr_of_selects (op := .add) ha hb rfl, aluInstr_of_selects (op := .add) hb ha rfl, ?_, ?_⟩,
    ⟨_, _, aluInstr_of_selects (op := .mul) ha hb rfl, aluInstr_of_selects (op := .mul) hb ha rfl, ?_⟩⟩
  · rw [advancePc_reg, reg_setReg_self, advancePc_reg, reg_setReg_self, Int.add_comm]
  · rw [advancePc_reg, reg_setReg_self, toNat_wrap8_add]
  · rw [advancePc_reg, reg_setReg_self, advancePc_reg, reg_setReg_self, Int.mul_comm]

/-- Settles O44 (R107, decision D3): CMP leaves the comparison's pattern in FL and the registers as they are. -/
theorem compareLaws : Obligations.CompareLaws := fun s _ _ hwf ha hb =>
  ⟨_, _, _, exec_cmp_of_selects ha hb, exec_cmp_of_selects ha hb, exec_cmp_of_selects hb ha,
    compareFlag_ne_zero hwf _ _, compareFlag_cases s.cfg _ _, rfl, compareFlag_eq_flE_iff hwf, compareFlag_swap hwf⟩

/-- Settles O45 (R31, decision D3): the reset value of FL is not the EQUAL pattern. -/
theorem jumpsBeforeFirstCompare : Obligations.JumpsBeforeFirstCompare := by
  intro s opA hwf hzero hsel
  obtain ⟨⟨hE, -⟩, -⟩ := flags_distinct_of_wf hwf
  have hne : s.fl ≠ s.cfg.flE := by rwa [hzero]
  exact ⟨⟨_, exec_jeq_of_ne hne, setPc_pc s _⟩,
    ⟨_, (exec_jne_of_ne hne).trans (exec_jmp_of_selects hsel), setPc_pc s _⟩⟩

/-- Settles O46 (R123, R132, decision D12): the clauses of PUSH, POP and CALL for the stack pointer as operand. -/
theorem stackPointerAsOperand : Obligations.StackPointerAsOperand := by
  intro s opA hsel hsp
  obtain ⟨-, hpush, -⟩ := pushStoresBelowStackPointer s opA
  obtain ⟨-, hpop, -⟩ := popLoadsFromStackPointer s opA
  obtain ⟨-, hcall, -⟩ := callPushesReturnAddress s opA
  refine ⟨?_, ?_, ?_⟩
  · obtain ⟨t, ht, htsp, htmem, -⟩ := hpush hsel
    exact ⟨t, ht, htsp, by rw [htmem, if_pos hsp]⟩
  · obtain ⟨t, ht, -, htsp, -⟩ := hpop hsel
    exact ⟨t, ht, htsp hsp⟩
  · obtain ⟨t, ht, htsp, htmem, htpc, -⟩ := hcall hsel
    exact ⟨t, ht, htsp, htmem, by rw [htpc, if_pos hsp]⟩

/-- Settles O40 (R140): HLT is a write of the run state and an advance by the parameter, for both its values. -/
theorem hltStopsEngine : Obligations.HltStopsEngine := by
  intro s
  refine ⟨rfl, _, exec_hlt s, ?_, ?_, fun r => ?_, fun a => ?_, ?_, ?_, ?_, ?_⟩
  · rw [advancePc_run, halt_run]
  · rw [advancePc_pc, halt_pc]
  · rw [advancePc_reg, halt_reg]
  · rw [advancePc_memRead, halt_memRead]
  · rw [advancePc_cfg, halt_cfg]
  · rw [advancePc_fl, halt_fl]
  · rw [advancePc_fault, halt_fault]
  · rw [advancePc_out, halt_out]

/-- Settles O50 (R100, R101): by cases on the mnemonic. -/
theorem aluRejectsOtherMnemonics : Obligations.AluRejectsOtherMnemonics := fun _ ra rb s =>
  ⟨alu_rejects ra rb s, alu_frame ra rb s⟩
end

section
/-! A push and what comes after it: the POP that takes the byte back, the RET that resumes, and the fetch that reads it;
the statements of `44_stack.md`, `45_call_ret.md` and `20_memory.md` §7 about two instructions in a row. -/

open Sys2Proof Sys2Proof.Machine

namespace Sys2Proof.Machine

variable {s t : State} {opA : Byte}

/-- A step over a fetched opcode byte whose mnemonic is known. -/
theorem step_of_byteOf {mn : Mnemonic} {a : Byte} (hrun : s.run = .running) (hwf : s.cfg.wf = true)
    (hlow : s.cfg.oorPolicy = .wrap ∨ s.pc.toNat ≤ 253) (hop : s.memRead s.pc = s.cfg.opMap.byteOf mn)
    (ha : s.memRead (s.pc + 1#8) = a) : step s = exec (Instr.assemble mn a (s.memRead (s.pc + 2#8))) s := by
  obtain ⟨hmap, -⟩ := config_wf_iff.mp hwf
  refine step_of_ok hrun (fetchDecode_of_decode hlow (decode_eq_ok.mpr ⟨mn, ?_, by rw [ha]⟩))
  rw [hop, OpMap.mnemonicOf_byteOf hmap]

/-- Where PUSH and CALL leave a byte, and that every other byte stays (R53). -/
theorem memRead_of_push_or_call {stored : Byte} (hsel : s.selects opA)
    (h : (exec (.push opA) s = .next t ∧
        stored = (if selected opA = s.cfg.spIndex then s.sp - 1#8 else s.reg (selected opA))) ∨
      (exec (.call opA) s = .next t ∧ stored = s.pc + 2#8)) (a : Byte) :
    t.memRead a = if a = s.sp - 1#8 then stored else s.memRead a := by
  rcases h with ⟨he, rfl⟩ | ⟨he, rfl⟩
  · rw [exec_push_of_selects hsel] at he
    injection he with ht
    rw [← ht, setPc_memRead, pushWith_memRead, decSp_reg]
  · rw [exec_call_of_selects hsel] at he
    injection he with ht
    rw [← ht, setPc_memRead, pushWith_memRead, returnAddress_decSp]

end Sys2Proof.Machine

/-- Settles O49 (R64): the fetch reads the memory that the push left. -/
theorem nextFetchSeesStore : Obligations.NextFetchSeesStore := by
  intro s t opA stored hsel hlow h
  have hread := memRead_of_push_or_call hsel h
  rw [fetch_of_low hlow, hread, hread, hread]

/-- Settles O48 (R134): the cell at the stack pointer that CALL left holds the return address, and RET takes it from
there. -/
theorem retResumesAfterCall : Obligations.RetResumesAfterCall := by
  intro s t u opA hsel hcall hcfg hsp hmem
  obtain ⟨-, hclause, -⟩ := callPushesReturnAddress s opA
  obtain ⟨t', ht', htsp, htmem, -⟩ := hclause hsel
  obtain rfl : t' = t := by rw [hcall] at ht'; injection ht' with ht'; exact ht'.symm
  obtain ⟨-, v, hv, hvpc, hvsp, -⟩ := retPopsPc u
  refine ⟨v, hv, ?_, ?_⟩
  · rw [hvpc, hsp, hmem, htsp, htmem]
  · rw [hvsp, hsp, htsp, BitVec.sub_add_cancel]

/-- Settles O47 (R124): PUSH leaves the bytes of the POP and the parameters as they are, so the second step is that POP,
and it reads the cell that PUSH wrote. -/
theorem pushPopRoundTrip : Obligations.PushPopRoundTrip := by
  intro s opA opB hrun hwf hlow hpushOp hpushArg hpopOp hpopArg hselA hselB hneA hneB hstoreOp hstoreArg
  obtain ⟨-, hpush, -⟩ := pushStoresBelowStackPointer s opA
  obtain ⟨t, ht, htsp, htmem, htpc, -, htframe, htcfg, -, htrun, -⟩ := hpush hselA
  obtain ⟨-, hpop, -⟩ := popLoadsFromStackPointer t opB
  have htselB : t.selects opB := by rwa [State.selects, htcfg]
  obtain ⟨u, hu, hureg, -, hupc, -⟩ := hpop htselB
  obtain ⟨hureg, husp⟩ := hureg (by rwa [htcfg])
  have hfirst : step s = .next t :=
    (step_of_byteOf (mn := .push) hrun hwf (hlow.imp_right (by omega)) hpushOp hpushArg).trans ht
  have htlow : t.cfg.oorPolicy = .wrap ∨ t.pc.toNat ≤ 253 := by
    rw [htcfg, htpc, BitVec.toNat_add]
    exact hlow.imp_right fun hpc => (Nat.mod_le _ _).trans (Nat.add_le_add_right hpc 2)
  have htpopOp : t.memRead t.pc = t.cfg.opMap.byteOf .pop := by
    rw [htpc, htframe _ hstoreOp.symm, htcfg]
    exact hpopOp
  have htpopArg : t.memRead (t.pc + 1#8) = opB := by
    rw [htpc, BitVec.add_assoc]
    exact (htframe _ hstoreArg.symm).trans hpopArg
  have hsecond : step t = .next u :=
    (step_of_byteOf (mn := .pop) (htrun.trans hrun) (by rwa [htcfg]) htlow htpopOp htpopArg).trans hu
  refine ⟨u, ?_, ?_, ?_, ?_⟩
  · rw [run_succ 1 hfirst, run_succ 0 hsecond, run_zero]
  · rw [hureg, htsp, htmem, if_neg hneA]
  · rw [husp, htsp, BitVec.sub_add_cancel]
  · rw [hupc, htpc, BitVec.add_assoc]
    rfl
end
